-- ==== Sys2Proof/Word.lean ====
section
/-! DEFINITION. The word types of the LC-2 (00_scope.md R5, R7; 20_memory.md R50). -/

namespace Sys2Proof

/-- The contents of one memory location, of a register, and an address: 16 bits (00_scope.md R5, R12). -/
abbrev Word := BitVec 16

/-- A character of the keyboard or of the screen: an 8-bit value (92_eei_decisions.md D24). -/
abbrev Byte := BitVec 8

/-- The number of a general purpose register: the 3-bit field value `i` names `Ri` (10_state.md R21,
30_encoding.md R84). -/
abbrev Reg := BitVec 3

end Sys2Proof
end

