-- ==== Sys2Proof/Syntax.lean ====
section
/-! DEFINITION. The instructions of the LC-2: one constructor per row of spec/opcode_table.json
(30_encoding.md R82, R83; 90_conflicts.md C7). -/

namespace Sys2Proof

/-- The 20 rows of the opcode table. The operands are the fields of Figure A.1 (R82), under its names. -/
inductive Instr where
  /-- `ADD DR, SR1, SR2` (40_operate.md R110). -/
  | addReg (dr sr1 sr2 : Reg)
  /-- `ADD DR, SR1, imm5` (40_operate.md R111). -/
  | addImm (dr sr1 : Reg) (imm5 : BitVec 5)
  /-- `AND DR, SR1, SR2` (40_operate.md R112). -/
  | andReg (dr sr1 sr2 : Reg)
  /-- `AND DR, SR1, imm5` (40_operate.md R113). -/
  | andImm (dr sr1 : Reg) (imm5 : BitVec 5)
  /-- `BR[n][z][p] LABEL` (41_control.md R120). -/
  | br (n z p : Bool) (pgoffset9 : BitVec 9)
  /-- `JSR LABEL`, the link bit L = 1 (41_control.md R121). -/
  | jsr (pgoffset9 : BitVec 9)
  /-- `JMP LABEL`, the link bit L = 0 (41_control.md R122). -/
  | jmp (pgoffset9 : BitVec 9)
  /-- `JSRR BaseR, index6`, L = 1 (41_control.md R123). -/
  | jsrr (baseR : Reg) (index6 : BitVec 6)
  /-- `JMPR BaseR, index6`, L = 0 (41_control.md R124). -/
  | jmpr (baseR : Reg) (index6 : BitVec 6)
  /-- `LD DR, LABEL` (42_loads.md R130). -/
  | ld (dr : Reg) (pgoffset9 : BitVec 9)
  /-- `LDI DR, LABEL` (42_loads.md R131). -/
  | ldi (dr : Reg) (pgoffset9 : BitVec 9)
  /-- `LDR DR, BaseR, index6` (42_loads.md R132). -/
  | ldr (dr baseR : Reg) (index6 : BitVec 6)
  /-- `LEA DR, LABEL` (42_loads.md R133). -/
  | lea (dr : Reg) (pgoffset9 : BitVec 9)
  /-- `NOT DR, SR` (40_operate.md R114). -/
  | not (dr sr : Reg)
  /-- `RET` (41_control.md R125). -/
  | ret
  /-- `RTI` (44_system.md R151). -/
  | rti
  /-- `ST SR, LABEL` (43_stores.md R140). -/
  | st (sr : Reg) (pgoffset9 : BitVec 9)
  /-- `STI SR, LABEL` (43_stores.md R141). -/
  | sti (sr : Reg) (pgoffset9 : BitVec 9)
  /-- `STR SR, BaseR, index6` (43_stores.md R142). -/
  | str (sr baseR : Reg) (index6 : BitVec 6)
  /-- `TRAP trapvect8` (44_system.md R150). -/
  | trap (trapvect8 : BitVec 8)
  deriving DecidableEq, Repr

end Sys2Proof
end

