-- ==== Sys2Proof/Decode.lean ====
section
/-! DEFINITION. Decoder and encoder, written from Figure A.1 (30_encoding.md R82), the opcode map with its
match and mask words (R83) and the field positions (R84 to R90). -/

namespace Sys2Proof

/-! ### The fields of an instruction word -/

/-- DR, and SR of the stores: bits [11:9] (30_encoding.md R84). -/
def fieldDR (w : Word) : Reg := w.extractLsb' 9 3

/-- SR1, SR of NOT, and BaseR: bits [8:6] (30_encoding.md R84). -/
def fieldSR1 (w : Word) : Reg := w.extractLsb' 6 3

/-- SR2: bits [2:0] (30_encoding.md R84). -/
def fieldSR2 (w : Word) : Reg := w.extractLsb' 0 3

/-- imm5: bits [4:0] (30_encoding.md R86). -/
def fieldImm5 (w : Word) : BitVec 5 := w.extractLsb' 0 5

/-- index6: bits [5:0] (30_encoding.md R87). -/
def fieldIndex6 (w : Word) : BitVec 6 := w.extractLsb' 0 6

/-- pgoffset9: bits [8:0] (30_encoding.md R88). -/
def fieldPgoffset9 (w : Word) : BitVec 9 := w.extractLsb' 0 9

/-- trapvect8: bits [7:0] (30_encoding.md R89; 90_conflicts.md C3). -/
def fieldTrapvect8 (w : Word) : BitVec 8 := w.extractLsb' 0 8

/-! ### The opcode table -/

/-- One row of the opcode table: "A word `w` is the row's instruction when `(w and mask) == match`"
(30_encoding.md R83); `build` reads the row's fields. -/
structure OpcodeRow where
  mask : Word
  pattern : Word
  build : Word → Instr

/-- The word has the row's fixed bits (30_encoding.md R83). -/
def OpcodeRow.fits (r : OpcodeRow) (w : Word) : Bool := w &&& r.mask == r.pattern

/-- The 20 rows of 30_encoding.md R83, in its order. -/
def opcodeRows : List OpcodeRow :=
  [ ⟨0xF038, 0x1000, fun w => .addReg (fieldDR w) (fieldSR1 w) (fieldSR2 w)⟩,
    ⟨0xF020, 0x1020, fun w => .addImm (fieldDR w) (fieldSR1 w) (fieldImm5 w)⟩,
    ⟨0xF038, 0x5000, fun w => .andReg (fieldDR w) (fieldSR1 w) (fieldSR2 w)⟩,
    ⟨0xF020, 0x5020, fun w => .andImm (fieldDR w) (fieldSR1 w) (fieldImm5 w)⟩,
    ⟨0xF000, 0x0000, fun w => .br (w.getLsbD 11) (w.getLsbD 10) (w.getLsbD 9) (fieldPgoffset9 w)⟩,
    ⟨0xFE00, 0x4800, fun w => .jsr (fieldPgoffset9 w)⟩,
    ⟨0xFE00, 0x4000, fun w => .jmp (fieldPgoffset9 w)⟩,
    ⟨0xFE00, 0xC800, fun w => .jsrr (fieldSR1 w) (fieldIndex6 w)⟩,
    ⟨0xFE00, 0xC000, fun w => .jmpr (fieldSR1 w) (fieldIndex6 w)⟩,
    ⟨0xF000, 0x2000, fun w => .ld (fieldDR w) (fieldPgoffset9 w)⟩,
    ⟨0xF000, 0xA000, fun w => .ldi (fieldDR w) (fieldPgoffset9 w)⟩,
    ⟨0xF000, 0x6000, fun w => .ldr (fieldDR w) (fieldSR1 w) (fieldIndex6 w)⟩,
    ⟨0xF000, 0xE000, fun w => .lea (fieldDR w) (fieldPgoffset9 w)⟩,
    ⟨0xF03F, 0x903F, fun w => .not (fieldDR w) (fieldSR1 w)⟩,
    ⟨0xFFFF, 0xD000, fun _ => .ret⟩,
    ⟨0xFFFF, 0x8000, fun _ => .rti⟩,
    ⟨0xF000, 0x3000, fun w => .st (fieldDR w) (fieldPgoffset9 w)⟩,
    ⟨0xF000, 0xB000, fun w => .sti (fieldDR w) (fieldPgoffset9 w)⟩,
    ⟨0xF000, 0x7000, fun w => .str (fieldDR w) (fieldSR1 w) (fieldIndex6 w)⟩,
    ⟨0xFF00, 0xF000, fun w => .trap (fieldTrapvect8 w)⟩ ]

/-- The decoder, total on all 65,536 words (30_encoding.md R91): the instruction of the row whose fixed bits
the word has, `none` for the words R92 leaves undefined. -/
def decode (w : Word) : Option Instr :=
  match opcodeRows.find? (fun r => r.fits w) with
  | some r => some (r.build w)
  | none => none

/-! ### The encoder -/

/-- A field's value placed with its least significant bit at bit `lo` of an instruction word. -/
def place {w : Nat} (v : BitVec w) (lo : Nat) : Word := v.setWidth 16 <<< lo

/-- A one-bit field at bit `i`. -/
def placeBit (b : Bool) (i : Nat) : Word := place (BitVec.ofBool b) i

/-- The word of an instruction: Figure A.1, row by row (30_encoding.md R82). -/
def encode : Instr → Word
  | .addReg dr sr1 sr2 => 0x1000 ||| place dr 9 ||| place sr1 6 ||| place sr2 0
  | .addImm dr sr1 imm5 => 0x1020 ||| place dr 9 ||| place sr1 6 ||| place imm5 0
  | .andReg dr sr1 sr2 => 0x5000 ||| place dr 9 ||| place sr1 6 ||| place sr2 0
  | .andImm dr sr1 imm5 => 0x5020 ||| place dr 9 ||| place sr1 6 ||| place imm5 0
  | .br n z p off9 => 0x0000 ||| placeBit n 11 ||| placeBit z 10 ||| placeBit p 9 ||| place off9 0
  | .jsr off9 => 0x4800 ||| place off9 0
  | .jmp off9 => 0x4000 ||| place off9 0
  | .jsrr baseR index6 => 0xC800 ||| place baseR 6 ||| place index6 0
  | .jmpr baseR index6 => 0xC000 ||| place baseR 6 ||| place index6 0
  | .ld dr off9 => 0x2000 ||| place dr 9 ||| place off9 0
  | .ldi dr off9 => 0xA000 ||| place dr 9 ||| place off9 0
  | .ldr dr baseR index6 => 0x6000 ||| place dr 9 ||| place baseR 6 ||| place index6 0
  | .lea dr off9 => 0xE000 ||| place dr 9 ||| place off9 0
  | .not dr sr => 0x903F ||| place dr 9 ||| place sr 6
  | .ret => 0xD000
  | .rti => 0x8000
  | .st sr off9 => 0x3000 ||| place sr 9 ||| place off9 0
  | .sti sr off9 => 0xB000 ||| place sr 9 ||| place off9 0
  | .str sr baseR index6 => 0x7000 ||| place sr 9 ||| place baseR 6 ||| place index6 0
  | .trap trapvect8 => 0xF000 ||| place trapvect8 0

/-- The instruction the decoder reads from an instruction whose bits are `w`, of which the table gives the
low `nbits`; the bits above are 0. The only instruction length is one 16-bit word (30_encoding.md R80). -/
def decodeTableWord (nbits w : Nat) : Option Instr := decode (BitVec.ofNat 16 (w % 2 ^ nbits))

end Sys2Proof
end

