-- ==== Sys2Proof/Machine/Operands.lean ====
section
/-! DEFINITION. Operand forms: the extensions of 00_scope.md R8, R9 and the addresses of 30_encoding.md R86 to R89. -/

namespace Sys2Proof.Machine

/-- SEXT of imm5 (30_encoding.md R86). -/
def sext5 (imm5 : BitVec 5) : Word := imm5.signExtend 16

/-- ZEXT of index6 (30_encoding.md R87). -/
def zext6 (index6 : BitVec 6) : Word := index6.setWidth 16

/-- ZEXT of an 8-bit value: trapvect8 (30_encoding.md R89) and the character of GETC and IN (44_system.md R155). -/
def zext8 (v : BitVec 8) : Word := v.setWidth 16

/-- `pgaddr(off9) = (pc and xFE00) or off9`, with `pc` the incremented PC (30_encoding.md R88; 90_conflicts.md
C2; log 24). -/
def pgaddr (pc : Word) (off9 : BitVec 9) : Word := (pc &&& 0xFE00) ||| off9.setWidth 16

/-- The base+index address `x[BaseR] + zext_6(index6)`, modulo 2^16 (30_encoding.md R87; log 22). -/
def baseIndex (base : Word) (index6 : BitVec 6) : Word := base + zext6 index6

/-- The low byte of a word: the character a store to CRTDR displays and OUT takes from R0 (60_exceptions.md R183,
44_system.md R156). -/
def lowByte (v : Word) : Byte := v.setWidth 8

end Sys2Proof.Machine
end

