-- ==== Sys2Proof/Config.lean ====
section
/-! DEFINITION. What the spec leaves to the run: the parameters of 00_scope.md R6 that are fixed for a run,
and the free values ('any value' of R11). -/

namespace Sys2Proof

/-- Whether the service routines are memory contents or the contracts of 44_system.md R155 to R160
(44_system.md R154). -/
inductive TrapModel where
  | image
  | contract
  deriving DecidableEq, Repr

/-- The three condition codes as one value, what NZP_LAYOUT makes of a word (00_scope.md R6). -/
structure Codes where
  n : Bool
  z : Bool
  p : Bool
  deriving DecidableEq, Repr

/-- NZP_LAYOUT: a function from a 16-bit word to (N, Z, P), and its inverse for the interrupt push (00_scope.md R6,
44_system.md R151). Both are plain data here; what they say is `poppedCodes` and `pushedWord` of Machine/Flags.lean
(log 13). -/
inductive NzpLayout where
  /-- One bit of the word for each code, as in the spec's default. -/
  | bits (nBit zBit pBit : Fin 16)
  /-- The two functions as tables, so that any function can be given. -/
  | table (popped : List (Word × Codes)) (pushed : List (Codes × Word))
  deriving DecidableEq, Repr

/-- One pair of INTERRUPT_SOURCES: a source and the starting address of its service routine
(60_exceptions.md R175). -/
structure InterruptSource where
  source : Nat
  start : Word
  deriving DecidableEq, Repr

/-- The parameters of 00_scope.md R6 that are fixed for a run. They stand in the state, so that a statement
about every state is a statement about every choice of them (log 6). -/
structure Params where
  /-- IO_EXTRA: addresses that are device registers besides the five of Table A.1 (20_memory.md R57). -/
  ioExtra : List Word
  /-- NZP_LAYOUT (44_system.md R151). -/
  nzpLayout : NzpLayout
  /-- INTERRUPT_SOURCES (60_exceptions.md R175). -/
  interruptSources : List InterruptSource
  /-- TRAP_MODEL (44_system.md R154). -/
  trapModel : TrapModel
  /-- The operating system's own area: the memory a service routine may leave with any value in contract mode
  (44_system.md R160). The model's own parameter (log 28). -/
  osArea : List Word
  deriving DecidableEq, Repr

/-- The spec's default for NZP_LAYOUT: N = bit 2, Z = bit 1, P = bit 0 (00_scope.md R6; log 13). -/
def NzpLayout.specDefault : NzpLayout := .bits 2 1 0

/-- The defaults of 00_scope.md R6. DESIGN CHOICE (log 28): `osArea` is empty. -/
def Params.specDefault : Params where
  ioExtra := []
  nzpLayout := NzpLayout.specDefault
  interruptSources := []
  trapModel := .image
  osArea := []

/-- A free word: 'any value' of 00_scope.md R11, drawn afresh for every index (log 7). No proof can see it. -/
opaque Config.freeWord : Nat → Word

/-- A free bit: whether a device or an interrupt source acts now, and the codes a system call leaves (log 7). -/
opaque Config.freeBit : Nat → Bool

/-- A free number: which of several pending interrupt requests is taken (60_exceptions.md R178; log 7, 12). -/
opaque Config.freeIndex : Nat → Nat

/-- A free finite sequence of characters: IN's prompt, what follows its echo, HALT's message
(93_implementation_defined.md U15; log 7, 31). -/
opaque Config.freeText : Nat → List Byte

/-- The characters of an infinite KBD_INPUT, by their number (00_scope.md R6; log 11). -/
opaque Config.freeKey : Nat → Byte

end Sys2Proof
end

