-- ==== Sys2Proof/Machine/State.lean ====
section
/-! DEFINITION. The state of the LC-2 (10_state.md R20, R37), the reasons a step can stop, and the state a run
starts from. -/

namespace Sys2Proof.Machine

/-- Why a step stops for good: the spec's own 'no step' (00_scope.md R11, `stuck`). -/
inductive Fault where
  /-- Raised by `step` when MCR[15] = 0: "When cleared, instruction processing stops" (10_state.md R36,
  60_exceptions.md R187). It is the end of the run, not an error. Safe. -/
  | stopped
  /-- Raised by the contracts of GETC and IN when no character will ever arrive: the call never returns
  (44_system.md R155; 93_implementation_defined.md U23, `stuck`). Safe. -/
  | noCharacter
  deriving DecidableEq, Repr

/-- The situations the spec gives no meaning to (60_exceptions.md R171: the model refuses). All are safe: the
model stops where the hardware does something the source does not say. -/
inductive Refusal where
  /-- Raised by `exec` for an instruction without a meaning: none is left. Safe. -/
  | notModelled (mnemonic : String)
  /-- Raised by `step` for a fetched word whose fixed bits are not Figure A.1's (30_encoding.md R92). Safe. -/
  | undefinedWord (w : Word)
  /-- Raised by TRAP for the vectors x00 to x1F, which "may not be used" (44_system.md R153). Safe. -/
  | reservedTrapVector (vect : BitVec 8)
  /-- Raised by the fetch from one of the five device registers (20_memory.md R58). Safe. -/
  | fetchFromDevice (addr : Word)
  /-- Raised by every fetch, read and write of an address in IO_EXTRA (20_memory.md R57). Safe. -/
  | ioExtraAccess (addr : Word)
  /-- Raised by a store to CRTSR, KBSR or KBDR (20_memory.md R54). Safe. -/
  | storeToDeviceRegister (addr : Word)
  /-- Raised by a store to CRTDR while CRTSR[15] = 0 (60_exceptions.md R183). Safe. -/
  | displayNotReady
  /-- Raised by the contract of PUTS when the string runs into device addresses or is never terminated
  (44_system.md R157; 93_implementation_defined.md U22). Safe. -/
  | stringNotInMemory (addr : Word)
  deriving DecidableEq, Repr

/-- Memory words by address (20_memory.md R50, R51: a word is one value and is not split into bytes; log 1).
The canonical form is `Memory.wf` of Machine/Ops.lean. -/
abbrev Memory := List (Nat × Word)

/-- What an address reads as that nothing has written. DESIGN CHOICE (log 2): x0000; the spec leaves
INITIAL_MEMORY to the run (70_reset_and_hazards.md R203). Unsafe. -/
def Memory.unlisted : Word := 0x0000

/-- KBD_INPUT not delivered yet: "finite or infinite sequence of 8-bit characters" (00_scope.md R6, 60_exceptions.md R181;
log 11). -/
structure KbdInput where
  /-- The characters that come first, the next one first. -/
  typed : List Byte
  /-- `none`: nothing after them, the sequence is finite. `some k`: after them the characters `Config.freeKey k`,
  `Config.freeKey (k + 1)` and so on without end. -/
  endless : Option Nat
  deriving DecidableEq, Repr

/-- The state: 10_state.md R20 and the hidden state of R37, with the model's own `draws` and `params`. -/
structure State where
  /-- R0 to R7 (10_state.md R21). -/
  regs : Vector Word 8
  /-- The program counter (10_state.md R24). -/
  pc : Word
  /-- The condition codes, three independent bits (10_state.md R26, R28). -/
  n : Bool
  z : Bool
  p : Bool
  /-- The memory locations (10_state.md R29). -/
  mem : Memory
  /-- CRTSR[15] (10_state.md R34). -/
  crtReady : Bool
  /-- CRTDR[7:0], the last character displayed (10_state.md R35). -/
  crtData : Byte
  /-- KBSR[15] (10_state.md R32). -/
  kbdReady : Bool
  /-- KBDR[7:0] (10_state.md R33). -/
  kbdData : Byte
  /-- MCR[15], the clock enable bit (10_state.md R31, R36). -/
  clockEnable : Bool
  /-- The part of KBD_INPUT not delivered yet (60_exceptions.md R181; log 11). -/
  kbdInput : KbdInput
  /-- OUTPUT, the characters displayed so far, oldest first (60_exceptions.md R183). -/
  output : List Byte
  /-- The external interrupts requested and not yet taken (10_state.md R37; log 12). -/
  pending : List InterruptSource
  /-- The model's own counter of free values drawn so far (log 7). -/
  draws : Nat
  /-- The model's own copy of the run's parameters (00_scope.md R6; log 6). -/
  params : Params
  deriving DecidableEq, Repr

/-- The start of a run (70_reset_and_hazards.md R205). The spec gives MCR[15] = 1, KBSR[15] = 0, an empty screen
and no pending interrupt (R204). DESIGN CHOICE (log 3): R0 to R7 are x0000 and N, Z, P are 0. PRESUMED (log 4):
START_PC is x3000. DESIGN CHOICE (log 5): CRTSR[15] is 0, KBDR[7:0] and CRTDR[7:0] are x00. DESIGN CHOICE
(log 11): KBD_INPUT is empty. Memory lists nothing (log 2). The choices are unsafe. -/
def State.reset : State where
  regs := Vector.replicate 8 0x0000
  pc := 0x3000
  n := false
  z := false
  p := false
  mem := []
  crtReady := false
  crtData := 0x00
  kbdReady := false
  kbdData := 0x00
  clockEnable := true
  kbdInput := ⟨[], none⟩
  output := []
  pending := []
  draws := 0
  params := Params.specDefault

end Sys2Proof.Machine
end

