-- ==== Sys2Proof/Machine/Devices.lean ====
section
/-! DEFINITION. The device registers of Table A.1 (10_state.md R30 to R35), the devices' own steps (60_exceptions.md
R181, R183) and the external interrupt requests (60_exceptions.md R175). -/

namespace Sys2Proof.Machine

/-! ### Addresses (10_state.md R30) -/

/-- CRT status register. -/
def crtsrAddr : Word := 0xF3FC

/-- CRT data register. -/
def crtdrAddr : Word := 0xF3FF

/-- Keyboard status register. -/
def kbsrAddr : Word := 0xF400

/-- Keyboard data register. -/
def kbdrAddr : Word := 0xF401

/-- Machine control register. -/
def mcrAddr : Word := 0xF402

/-- One of the five device registers of Table A.1. -/
def isDevice (a : Word) : Bool :=
  a == crtsrAddr || a == crtdrAddr || a == kbsrAddr || a == kbdrAddr || a == mcrAddr

/-- A memory location: neither a device register nor in IO_EXTRA (20_memory.md R57). -/
def isMemory (s : State) (a : Word) : Bool := !isDevice a && !s.params.ioExtra.contains a

/-- `k` free values have been drawn (log 7). -/
def State.drawn (s : State) (k : Nat) : State := { s with draws := s.draws + k }

/-! ### The registers as a load and a store see them -/

/-- A status word: bit 15 as given, bits [14:0] any value (93_implementation_defined.md U5). -/
def statusWord (bit15 : Bool) (free : Word) : Word :=
  (free &&& 0x7FFF) ||| (if bit15 then 0x8000 else 0x0000)

/-- A character word: bits [7:0] as given, bits [15:8] any value (10_state.md R33). -/
def charWord (c : Byte) (free : Word) : Word := (free &&& 0xFF00) ||| zext8 c

/-- A load from CRTSR (60_exceptions.md R183). -/
def readCrtsr (s : State) : Word × State := (statusWord s.crtReady (Config.freeWord s.draws), s.drawn 1)

/-- A load from CRTDR: any value, no side effect (10_state.md R35). -/
def readCrtdr (s : State) : Word × State := (Config.freeWord s.draws, s.drawn 1)

/-- A load from KBSR (60_exceptions.md R181). -/
def readKbsr (s : State) : Word × State := (statusWord s.kbdReady (Config.freeWord s.draws), s.drawn 1)

/-- A load from KBDR clears the ready bit; while not ready it returns any value (60_exceptions.md R181; log 25). -/
def readKbdr (s : State) : Word × State :=
  (if s.kbdReady then charWord s.kbdData (Config.freeWord s.draws) else Config.freeWord s.draws,
    { s.drawn 1 with kbdReady := false })

/-- A load from MCR: bit 15 is the clock enable bit (10_state.md R31, 20_memory.md R53). -/
def readMcr (s : State) : Word × State := (statusWord s.clockEnable (Config.freeWord s.draws), s.drawn 1)

/-- The video device takes characters: they are displayed and the ready bit falls (60_exceptions.md R183; log 26). -/
def displayText (cs : List Byte) (s : State) : State :=
  match cs.getLast? with
  | none => s
  | some c => { s with output := s.output ++ cs, crtData := c, crtReady := false }

/-- A store to MCR: only bit 15 is kept (10_state.md R31, 60_exceptions.md R186; log 27). -/
def writeMcr (v : Word) (s : State) : State := { s with clockEnable := v.msb }

/-! ### The devices' own steps -/

/-- The next character of KBD_INPUT and what remains after it, if there is one (60_exceptions.md R181; log 11). -/
def nextTyped (i : KbdInput) : Option (Byte × KbdInput) :=
  match i.typed, i.endless with
  | c :: rest, e => some (c, ⟨rest, e⟩)
  | [], some k => some (Config.freeKey k, ⟨[], some (k + 1)⟩)
  | [], none => none

/-- The keyboard's step, taken or not as a free bit says: the next character of KBD_INPUT arrives while no
character is waiting (60_exceptions.md R181). -/
def keyboardTurn (s : State) : State :=
  match nextTyped s.kbdInput with
  | none => s
  | some r =>
    if s.kbdReady then s
    else if Config.freeBit s.draws then { s.drawn 1 with kbdData := r.1, kbdReady := true, kbdInput := r.2 }
    else s.drawn 1

/-- The video device's step, taken or not as a free bit says: the ready bit rises again (60_exceptions.md R183). -/
def displayTurn (s : State) : State :=
  if s.crtReady then s else { s.drawn 1 with crtReady := Config.freeBit s.draws }

/-- Both devices may act (60_exceptions.md R180; log 9). -/
def deviceTurn (s : State) : State := displayTurn (keyboardTurn s)

/-- The devices may act between two accesses of one instruction (20_memory.md R56, R59); it matters only when the
first access was to a device register (log 9). -/
def betweenAccesses (first : Word) (s : State) : State := if isDevice first then deviceTurn s else s

/-- Each configured source not pending yet requests an interrupt or not, as a free bit says
(60_exceptions.md R175; log 12). -/
def requestTurn : List InterruptSource → State → State
  | [], s => s
  | i :: rest, s =>
    requestTurn rest
      (if i ∈ s.pending then s
       else if Config.freeBit s.draws then { s.drawn 1 with pending := s.pending ++ [i] }
       else s.drawn 1)

/-- What the other agents may do before the processor's next step (20_memory.md R59; log 9, 12). -/
def agentsTurn (s : State) : State := requestTurn s.params.interruptSources (deviceTurn s)

/-- The request taken next: any one of the pending requests (60_exceptions.md R178), or none. -/
def takeRequest (s : State) : Option (InterruptSource × State) :=
  match s.pending with
  | [] => none
  | first :: rest =>
    let i := (first :: rest).getD (Config.freeIndex s.draws % (first :: rest).length) first
    some (i, { s.drawn 1 with pending := (first :: rest).erase i })

/-- The next character a service routine gets from the keyboard: the waiting one, else the next of KBD_INPUT; `none`
when none will ever arrive (44_system.md R155). -/
def takeKey (s : State) : Option (Byte × State) :=
  if s.kbdReady then some (s.kbdData, { s with kbdReady := false })
  else
    match nextTyped s.kbdInput with
    | none => none
    | some r => some (r.1, { s with kbdData := r.1, kbdInput := r.2 })

end Sys2Proof.Machine
end

