-- ==== Sys2Proof/Machine/Flags.lean ====
section
/-! DEFINITION. The condition codes: setcc (10_state.md R27), and the word RTI pops and the interrupt entry pushes
(44_system.md R151, 60_exceptions.md R176). -/

namespace Sys2Proof.Machine

/-- The three codes written at once. -/
def State.setFlags (s : State) (n z p : Bool) : State := { s with n := n, z := z, p := p }

/-- `setcc(X)` (10_state.md R27): N is bit 15, Z says the word is x0000, P says neither. -/
def State.setcc (s : State) (v : Word) : State := s.setFlags v.msb (v == 0) (!v.msb && v != 0)

/-- One code at its bit position of the pushed word. -/
def flagAt (b : Bool) (i : Fin 16) : Word := (BitVec.ofBool b).setWidth 16 <<< i.val

/-- NZP_LAYOUT: the codes a popped word stands for (44_system.md R151). With one bit for each code the other bits are
ignored; a word that a table does not list stands for no code set (log 13). -/
def poppedCodes (l : NzpLayout) (w : Word) : Codes :=
  match l with
  | .bits nBit zBit pBit => ⟨w.getLsbD nBit, w.getLsbD zBit, w.getLsbD pBit⟩
  | .table popped _ => (popped.lookup w).getD ⟨false, false, false⟩

/-- NZP_LAYOUT's inverse: the word the interrupt entry pushes for the codes (60_exceptions.md R176). With one bit for each
code the other bits are 0; for codes that a table does not list the word is x0000 (log 13). -/
def pushedWord (l : NzpLayout) (c : Codes) : Word :=
  match l with
  | .bits nBit zBit pBit => flagAt c.n nBit ||| flagAt c.z zBit ||| flagAt c.p pBit
  | .table _ pushed => (pushed.lookup c).getD 0x0000

/-- N, Z, P as one value. -/
def State.codes (s : State) : Codes := ⟨s.n, s.z, s.p⟩

/-- RTI's pop of the codes (44_system.md R151). -/
def State.popFlags (s : State) (w : Word) : State :=
  s.setFlags (poppedCodes s.params.nzpLayout w).n (poppedCodes s.params.nzpLayout w).z
    (poppedCodes s.params.nzpLayout w).p

/-- The word the interrupt entry pushes (60_exceptions.md R176). -/
def State.pushedFlags (s : State) : Word := pushedWord s.params.nzpLayout s.codes

end Sys2Proof.Machine
end

