-- ==== Sys2Proof/Machine/Ops.lean ====
section
/-! DEFINITION. The named operations over registers and memory: MemRead and MemWrite (20_memory.md R53, R54), the
fetch (R58), trap entry (60_exceptions.md R173), interrupt entry (R176) and the return from interrupt
(44_system.md R151). -/

namespace Sys2Proof.Machine

/-- What an operation with a result answers: the result and the state, or the step's stop. -/
abbrev Access (α : Type) := Host.Outcome α Fault Refusal

/-- Go on with the result; a fault or a refusal stays (the statements of a rule run in the order written,
00_scope.md R10; log 23). -/
def andThen {α β : Type} (x : Access α) (f : α → Access β) : Access β :=
  match x with
  | .next a => f a
  | .fault r => .fault r
  | .refused r => .refused r

/-! ### Registers -/

/-- `x[i]`: a read of `Ri` (10_state.md R21). -/
def State.readReg (s : State) (r : Reg) : Word := s.regs[r.toNat]'(r.isLt)

/-- `x[i] <- v`: a write of `Ri` (10_state.md R21). -/
def State.writeReg (s : State) (r : Reg) (v : Word) : State := { s with regs := s.regs.set r.toNat v r.isLt }

/-- `pc <- target` (00_scope.md R9). -/
def State.setPc (s : State) (target : Word) : State := { s with pc := target }

/-- `pc <- A + 1`, modulo 2^16 (10_state.md R24, R25; log 22). -/
def State.advancePc (s : State) : State := s.setPc (s.pc + 1)

/-- `x[DR] <- v; setcc(v)`: the end of the seven instructions that set the codes (10_state.md R26). -/
def State.writeResult (s : State) (dr : Reg) (v : Word) : State := (s.writeReg dr v).setcc v

/-- R6, the stack pointer of RTI and of the interrupt entry (10_state.md R23). -/
def regSP : Reg := 6

/-- R7, the link register (10_state.md R23). -/
def regLink : Reg := 7

/-! ### Memory locations -/

/-- The word at an address (20_memory.md R53). -/
def Memory.read : Memory → Nat → Word
  | [], _ => Memory.unlisted
  | (k, w) :: rest, a => if k = a then w else Memory.read rest a

/-- A listed word put in its place, addresses rising. -/
def Memory.insert (a : Nat) (v : Word) : Memory → Memory
  | [] => [(a, v)]
  | (k, w) :: rest => if a < k then (a, v) :: (k, w) :: rest else (k, w) :: Memory.insert a v rest

/-- All 16 bits of one location replaced, no other changed (20_memory.md R54), in canonical form. -/
def Memory.write (m : Memory) (a : Nat) (v : Word) : Memory :=
  if v = Memory.unlisted then m.filter (fun c => c.1 != a)
  else Memory.insert a v (m.filter (fun c => c.1 != a))

/-- The canonical form: addresses strictly rising, every one that of a memory location, and no word listed that an
unlisted address reads as. -/
abbrev Memory.wf (m : Memory) : Prop :=
  m.Pairwise (fun c d => c.1 < d.1) ∧
    ∀ c ∈ m, c.1 < 65536 ∧ isDevice (BitVec.ofNat 16 c.1) = false ∧ c.2 ≠ Memory.unlisted

/-- A word written to a memory location. -/
def State.writeMem (s : State) (a v : Word) : State := { s with mem := s.mem.write a.toNat v }

/-! ### The primitives -/

/-- `MemRead(addr, 1)` (20_memory.md R53). -/
def memRead (a : Word) (s : State) : Access (Word × State) :=
  if a = crtsrAddr then .next (readCrtsr s)
  else if a = crtdrAddr then .next (readCrtdr s)
  else if a = kbsrAddr then .next (readKbsr s)
  else if a = kbdrAddr then .next (readKbdr s)
  else if a = mcrAddr then .next (readMcr s)
  else if a ∈ s.params.ioExtra then .refused (.ioExtraAccess a)
  else .next (s.mem.read a.toNat, s)

/-- `MemWrite(addr, 1, v)` (20_memory.md R54). -/
def memWrite (a v : Word) (s : State) : Access State :=
  if a = crtdrAddr then
    if s.crtReady then .next (displayText [lowByte v] s) else .refused .displayNotReady
  else if a = mcrAddr then .next (writeMcr v s)
  else if a = crtsrAddr ∨ a = kbsrAddr ∨ a = kbdrAddr then .refused (.storeToDeviceRegister a)
  else if a ∈ s.params.ioExtra then .refused (.ioExtraAccess a)
  else .next (s.writeMem a v)

/-- The instruction fetch: a read of a memory location; a device register is refused (20_memory.md R58; log 18). -/
def fetchWord (a : Word) (s : State) : Access Word :=
  if isDevice a then .refused (.fetchFromDevice a)
  else if a ∈ s.params.ioExtra then .refused (.ioExtraAccess a)
  else .next (s.mem.read a.toNat)

/-! ### Trap entry, interrupt entry and return -/

/-- Trap entry: `x[7] <- pc; pc <- MemRead(zext_8(trapvect8), 1)` (60_exceptions.md R173, 44_system.md R150). Its
return is RET (R174). -/
def trapEntry (trapvect8 : BitVec 8) (s : State) : Access State :=
  andThen (memRead (zext8 trapvect8) (s.writeReg regLink s.pc)) fun r => .next (r.2.setPc r.1)

/-- Interrupt entry between two instructions: push the PC, push the codes on the upward stack at R6, go to the service
routine (60_exceptions.md R176). DEDUCED (log 14): the use of R6, the direction and the push of the codes are
derived from RTI, not the source's words. -/
def interruptEntry (start : Word) (s : State) : Access State :=
  let s1 := s.writeReg regSP (s.readReg regSP + 1)
  andThen (memWrite (s1.readReg regSP) s1.pc s1) fun s2 =>
    let s3 := s2.writeReg regSP (s2.readReg regSP + 1)
    andThen (memWrite (s3.readReg regSP) s3.pushedFlags (betweenAccesses (s1.readReg regSP) s3)) fun s4 =>
      .next (s4.setPc start)

/-- Return from interrupt: pop the codes, then the PC, from the upward stack at R6 (44_system.md R151, 60_exceptions.md
R177; 90_conflicts.md C1). -/
def interruptReturn (s : State) : Access State :=
  andThen (memRead (s.readReg regSP) s) fun r1 =>
    let s1 := r1.2.popFlags r1.1
    let s2 := s1.writeReg regSP (s1.readReg regSP - 1)
    andThen (memRead (s2.readReg regSP) (betweenAccesses (s.readReg regSP) s2)) fun r2 =>
      let s3 := r2.2.setPc r2.1
      .next (s3.writeReg regSP (s3.readReg regSP - 1))

end Sys2Proof.Machine
end

