-- ==== Sys2Proof/Machine/Control.lean ====
section
/-! DEFINITION. The control instructions BR, JSR, JMP, JSRR, JMPR, RET (41_control.md). The PC of the state is the
incremented PC (10_state.md R24). -/

namespace Sys2Proof.Machine

/-- The link of JSR and JSRR: `x[7] <- pc` (41_control.md R121). -/
def State.link (s : State) : State := s.writeReg regLink s.pc

/-- BR: taken when a tested code is set (41_control.md R120). -/
def execBr (n z p : Bool) (off9 : BitVec 9) (s : State) : Access State :=
  .next (if (n && s.n) || (z && s.z) || (p && s.p) then s.setPc (pgaddr s.pc off9) else s)

/-- JSR (41_control.md R121). -/
def execJsr (off9 : BitVec 9) (s : State) : Access State :=
  .next (s.link.setPc (pgaddr s.pc off9))

/-- JMP (41_control.md R122). -/
def execJmp (off9 : BitVec 9) (s : State) : Access State :=
  .next (s.setPc (pgaddr s.pc off9))

/-- JSRR: R7 is written before BaseR is read (41_control.md R123; log 23). -/
def execJsrr (baseR : Reg) (index6 : BitVec 6) (s : State) : Access State :=
  .next (s.link.setPc (baseIndex (s.link.readReg baseR) index6))

/-- JMPR (41_control.md R124). -/
def execJmpr (baseR : Reg) (index6 : BitVec 6) (s : State) : Access State :=
  .next (s.setPc (baseIndex (s.readReg baseR) index6))

/-- RET (41_control.md R125). -/
def execRet (s : State) : Access State :=
  .next (s.setPc (s.readReg regLink))

end Sys2Proof.Machine
end

