-- ==== Sys2Proof/Machine/Loads.lean ====
section
/-! DEFINITION. The load instructions LD, LDI, LDR, LEA (42_loads.md). -/

namespace Sys2Proof.Machine

/-- `v = MemRead(addr, 1); x[DR] <- v; setcc(v)`: the end LD, LDI and LDR share (42_loads.md R130). -/
def loadFrom (a : Word) (dr : Reg) (s : State) : Access State :=
  andThen (memRead a s) fun r => .next (r.2.writeResult dr r.1)

/-- LD (42_loads.md R130). -/
def execLd (dr : Reg) (off9 : BitVec 9) (s : State) : Access State :=
  loadFrom (pgaddr s.pc off9) dr s

/-- LDI: the pointer is read first (42_loads.md R131). -/
def execLdi (dr : Reg) (off9 : BitVec 9) (s : State) : Access State :=
  andThen (memRead (pgaddr s.pc off9) s) fun r =>
    loadFrom r.1 dr (betweenAccesses (pgaddr s.pc off9) r.2)

/-- LDR (42_loads.md R132). -/
def execLdr (dr baseR : Reg) (index6 : BitVec 6) (s : State) : Access State :=
  loadFrom (baseIndex (s.readReg baseR) index6) dr s

/-- LEA: memory is not accessed (42_loads.md R133). -/
def execLea (dr : Reg) (off9 : BitVec 9) (s : State) : Access State :=
  .next (s.writeResult dr (pgaddr s.pc off9))

end Sys2Proof.Machine
end

