-- ==== Sys2Proof/Machine/Operate.lean ====
section
/-! DEFINITION. The operate instructions ADD, AND, NOT (40_operate.md). -/

namespace Sys2Proof.Machine

/-- ADD, register form (40_operate.md R110). -/
def execAddReg (dr sr1 sr2 : Reg) (s : State) : Access State :=
  .next (s.writeResult dr (s.readReg sr1 + s.readReg sr2))

/-- ADD, immediate form (40_operate.md R111). -/
def execAddImm (dr sr1 : Reg) (imm5 : BitVec 5) (s : State) : Access State :=
  .next (s.writeResult dr (s.readReg sr1 + sext5 imm5))

/-- AND, register form (40_operate.md R112). -/
def execAndReg (dr sr1 sr2 : Reg) (s : State) : Access State :=
  .next (s.writeResult dr (s.readReg sr1 &&& s.readReg sr2))

/-- AND, immediate form (40_operate.md R113). -/
def execAndImm (dr sr1 : Reg) (imm5 : BitVec 5) (s : State) : Access State :=
  .next (s.writeResult dr (s.readReg sr1 &&& sext5 imm5))

/-- NOT (40_operate.md R114). -/
def execNot (dr sr : Reg) (s : State) : Access State :=
  .next (s.writeResult dr (~~~ s.readReg sr))

end Sys2Proof.Machine
end

