-- ==== Sys2Proof/Machine/Stores.lean ====
section
/-! DEFINITION. The store instructions ST, STI, STR (43_stores.md). -/

namespace Sys2Proof.Machine

/-- ST (43_stores.md R140). -/
def execSt (sr : Reg) (off9 : BitVec 9) (s : State) : Access State :=
  memWrite (pgaddr s.pc off9) (s.readReg sr) s

/-- STI: the pointer is read, then the store is made (43_stores.md R141). -/
def execSti (sr : Reg) (off9 : BitVec 9) (s : State) : Access State :=
  andThen (memRead (pgaddr s.pc off9) s) fun r =>
    memWrite r.1 (s.readReg sr) (betweenAccesses (pgaddr s.pc off9) r.2)

/-- STR (43_stores.md R142). -/
def execStr (sr baseR : Reg) (index6 : BitVec 6) (s : State) : Access State :=
  memWrite (baseIndex (s.readReg baseR) index6) (s.readReg sr) s

end Sys2Proof.Machine
end

