-- ==== Sys2Proof/Machine/SystemCalls.lean ====
section
/-! DEFINITION. The five system calls in contract mode (44_system.md R154 to R160). What Table A.3 does not promise is a
free value. -/

namespace Sys2Proof.Machine

/-- R0 to R7 and N, Z, P hold any value (44_system.md R160; log 28). -/
def freeRegisters (s : State) : State :=
  { s with
    regs := Vector.ofFn (fun i : Fin 8 => Config.freeWord (s.draws + i.val))
    n := Config.freeBit (s.draws + 8)
    z := Config.freeBit (s.draws + 9)
    p := Config.freeBit (s.draws + 10)
    draws := s.draws + 11 }

/-- The memory words of a list of addresses hold any value (44_system.md R160; log 28). -/
def freeMemory : List Word → State → State
  | [], s => s
  | a :: rest, s =>
    freeMemory rest (if isMemory s a then (s.drawn 1).writeMem a (Config.freeWord s.draws) else s)

/-- What every call leaves: the registers and codes it does not promise and the operating system's own area are any
value (44_system.md R160; log 28). The PC is the address after the TRAP already. -/
def afterCall (s : State) : State := freeMemory s.params.osArea (freeRegisters s)

/-- GETC (44_system.md R155; log 30). -/
def callGetc (s : State) : Access State :=
  match takeKey s with
  | none => .fault .noCharacter
  | some r => .next ((afterCall r.2).writeReg 0 (zext8 r.1))

/-- OUT (44_system.md R156). -/
def callOut (s : State) : Access State :=
  .next (afterCall (displayText [lowByte (s.readReg 0)] s))

/-- The characters of the string at an address: bits [7:0] of consecutive words up to a word x0000; refused when it
runs into a device address (44_system.md R157). PRESUMED (log 29). `fuel` is the number of addresses left to try:
with one for every address of the space the string meets a device register before the fuel ends. -/
def readString : (fuel : Nat) → Word → State → Access (List Byte)
  | 0, a, _ => .refused (.stringNotInMemory a)
  | fuel + 1, a, s =>
    if isMemory s a then
      if s.mem.read a.toNat = 0 then .next []
      else andThen (readString fuel (a + 1) s) fun cs => .next (lowByte (s.mem.read a.toNat) :: cs)
    else .refused (.stringNotInMemory a)

/-- PUTS (44_system.md R157). -/
def callPuts (s : State) : Access State :=
  andThen (readString 65536 (s.readReg 0) s) fun cs => .next (afterCall (displayText cs s))

/-- IN: a prompt, a character, its echo and whatever the routine prints after it (44_system.md R158;
93_implementation_defined.md U15; log 31). -/
def callIn (s : State) : Access State :=
  match takeKey (displayText (Config.freeText s.draws) (s.drawn 2)) with
  | none => .fault .noCharacter
  | some r =>
    .next ((afterCall (displayText (r.1 :: Config.freeText (s.draws + 1)) r.2)).writeReg 0 (zext8 r.1))

/-- HALT: a message, then MCR[15] <- 0; it does not return (44_system.md R159; log 32). -/
def callHalt (s : State) : Access State :=
  let s1 := afterCall (displayText (Config.freeText s.draws) (s.drawn 2))
  .next { s1.setPc (Config.freeWord (s.draws + 1)) with clockEnable := false }

/-- TRAP in contract mode: the five vectors of Table A.3 are the calls above, any other is an ordinary TRAP
(44_system.md R154). -/
def systemCall (trapvect8 : BitVec 8) (s : State) : Access State :=
  if trapvect8 = 0x20 then callGetc s
  else if trapvect8 = 0x21 then callOut s
  else if trapvect8 = 0x22 then callPuts s
  else if trapvect8 = 0x23 then callIn s
  else if trapvect8 = 0x25 then callHalt s
  else trapEntry trapvect8 s

end Sys2Proof.Machine
end

