-- ==== Sys2Proof/Machine/System.lean ====
section
/-! DEFINITION. The system instructions TRAP and RTI (44_system.md). -/

namespace Sys2Proof.Machine

/-- TRAP: a reserved vector is refused (44_system.md R153; log 17); otherwise trap entry (R150) or, in contract mode, the
system call (R154). -/
def execTrap (trapvect8 : BitVec 8) (s : State) : Access State :=
  if trapvect8.toNat < 0x20 then .refused (.reservedTrapVector trapvect8)
  else
    match s.params.trapModel with
    | .image => trapEntry trapvect8 s
    | .contract => systemCall trapvect8 s

/-- RTI (44_system.md R151). -/
def execRti (s : State) : Access State := interruptReturn s

end Sys2Proof.Machine
end

