-- ==== Sys2Proof/Machine/Dispatch.lean ====
section
/-! DEFINITION. One meaning per instruction. The state's PC is the incremented PC, "the address of the instruction plus
one" (10_state.md R24; log 8). -/

namespace Sys2Proof.Machine

/-- The effect of an instruction on the state in which its PC is already incremented (00_scope.md R9, 10_state.md R24). -/
def exec (i : Instr) (s : State) : Host.Outcome State Fault Refusal :=
  match i with
  | .addReg dr sr1 sr2 => Sys2Proof.Machine.execAddReg dr sr1 sr2 s
  | .addImm dr sr1 imm5 => Sys2Proof.Machine.execAddImm dr sr1 imm5 s
  | .andReg dr sr1 sr2 => Sys2Proof.Machine.execAndReg dr sr1 sr2 s
  | .andImm dr sr1 imm5 => Sys2Proof.Machine.execAndImm dr sr1 imm5 s
  | .br n z p off9 => Sys2Proof.Machine.execBr n z p off9 s
  | .jsr off9 => Sys2Proof.Machine.execJsr off9 s
  | .jmp off9 => Sys2Proof.Machine.execJmp off9 s
  | .jsrr baseR index6 => Sys2Proof.Machine.execJsrr baseR index6 s
  | .jmpr baseR index6 => Sys2Proof.Machine.execJmpr baseR index6 s
  | .ld dr off9 => Sys2Proof.Machine.execLd dr off9 s
  | .ldi dr off9 => Sys2Proof.Machine.execLdi dr off9 s
  | .ldr dr baseR index6 => Sys2Proof.Machine.execLdr dr baseR index6 s
  | .lea dr off9 => Sys2Proof.Machine.execLea dr off9 s
  | .not dr sr => Sys2Proof.Machine.execNot dr sr s
  | .ret => Sys2Proof.Machine.execRet s
  | .rti => Sys2Proof.Machine.execRti s
  | .st sr off9 => Sys2Proof.Machine.execSt sr off9 s
  | .sti sr off9 => Sys2Proof.Machine.execSti sr off9 s
  | .str sr baseR index6 => Sys2Proof.Machine.execStr sr baseR index6 s
  | .trap trapvect8 => Sys2Proof.Machine.execTrap trapvect8 s

end Sys2Proof.Machine
end

