-- ==== Sys2Proof/Machine/Step.lean ====
section
/-! DEFINITION. One step of the machine (10_state.md R24) and the placing of an instruction where it is fetched. -/

namespace Sys2Proof.Machine

/-- Fetch at the PC, increment the PC, execute (10_state.md R24). An undefined word is refused (30_encoding.md R92;
log 16). -/
def runInstruction (s : State) : Host.Outcome State Fault Refusal :=
  andThen (fetchWord s.pc s) fun w =>
    match decode w with
    | none => .refused (.undefinedWord w)
    | some i => exec i s.advancePc

/-- One step. A stopped machine takes none (10_state.md R36; log 15). The devices and the interrupt sources may act
first (20_memory.md R59; log 9, 12). A pending interrupt is taken between instructions (60_exceptions.md R178);
otherwise the next instruction runs. -/
def step (s : State) : Host.Outcome State Fault Refusal :=
  if s.clockEnable then
    match takeRequest (agentsTurn s) with
    | none => runInstruction (agentsTurn s)
    | some r => interruptEntry r.1.start r.2
  else .fault .stopped

/-- The state with an instruction's word at the PC, so that the very next step runs it: the clock is enabled and no
interrupt source is left to act first. It stands for the loading of a program, which is outside the machine
(70_reset_and_hazards.md R203; log 34). -/
def State.withFetchWord (s : State) (nbits w : Nat) : State :=
  { s with
    mem := s.mem.write s.pc.toNat (BitVec.ofNat 16 (w % 2 ^ nbits))
    clockEnable := true
    pending := []
    params := { s.params with interruptSources := [] } }

end Sys2Proof.Machine
end

