-- ==== Sys2Proof/WellFormed.lean ====
section
/-! DEFINITION. Which instructions a program may use (30_encoding.md R93, R99). -/

namespace Sys2Proof

/-- The operand ranges of 30_encoding.md R99. The registers, imm5, index6 and pgoffset9 are in range by
their types; the one check left is the trap vector's: "x00 through x1F may not be used as trapvectors"
(R93). Such a word still decodes as TRAP (R93, 95_test_vectors.md V14); the machine refuses it when it runs. -/
def Instr.wellFormed : Instr → Bool
  | .addReg _ _ _ => true
  | .addImm _ _ _ => true
  | .andReg _ _ _ => true
  | .andImm _ _ _ => true
  | .br _ _ _ _ => true
  | .jsr _ => true
  | .jmp _ => true
  | .jsrr _ _ => true
  | .jmpr _ _ => true
  | .ld _ _ => true
  | .ldi _ _ => true
  | .ldr _ _ _ => true
  | .lea _ _ => true
  | .not _ _ => true
  | .ret => true
  | .rti => true
  | .st _ _ => true
  | .sti _ _ => true
  | .str _ _ _ => true
  | .trap trapvect8 => decide (0x20 ≤ trapvect8.toNat)

end Sys2Proof
end

