-- ==== Sys2Proof/Safety.lean ====
section
/-! DEFINITION. The terms statements are made in: the invariant, what a read may return and a store does, what stays
unchanged, and which instructions write which part of the state. -/

namespace Sys2Proof.Machine

/-! ### The invariant -/

/-- Memory is in canonical form; the pending requests are distinct requests of configured sources. -/
abbrev State.Inv (s : State) : Prop :=
  s.mem.wf ∧ s.pending.Nodup ∧ ∀ i ∈ s.pending, i ∈ s.params.interruptSources

/-! ### Reads and stores, as relations -/

/-- A read of this address has a meaning (20_memory.md R53): only an address in IO_EXTRA is refused. -/
abbrev canRead (s : State) (a : Word) : Prop := isDevice a = true ∨ a ∉ s.params.ioExtra

/-- A store to this address has a meaning (20_memory.md R54, 60_exceptions.md R183). -/
abbrev canWrite (s : State) (a : Word) : Prop :=
  (a = crtdrAddr ∧ s.crtReady = true) ∨ a = mcrAddr ∨ (isDevice a = false ∧ a ∉ s.params.ioExtra)

/-- What a read of an address may return: bit 15 of a status register, the waiting character of KBDR, any value
of CRTDR, the word of a memory location (20_memory.md R53; 93_implementation_defined.md U5, U7, U9). -/
def ReadsAs (s : State) (a w : Word) : Prop :=
  if a = crtsrAddr then w.msb = s.crtReady
  else if a = crtdrAddr then True
  else if a = kbsrAddr then w.msb = s.kbdReady
  else if a = kbdrAddr then s.kbdReady = true → lowByte w = s.kbdData
  else if a = mcrAddr then w.msb = s.clockEnable
  else w = s.mem.read a.toNat

/-- Why a store that has no meaning is refused (20_memory.md R54, 60_exceptions.md R183): the display is not ready, or the
address is CRTSR, KBSR or KBDR, or it is in IO_EXTRA. -/
def WriteRefusal (s : State) (a : Word) (r : Refusal) : Prop :=
  (a = 0xF3FF ∧ s.crtReady = false ∧ r = .displayNotReady) ∨
    ((a = 0xF3FC ∨ a = 0xF400 ∨ a = 0xF401) ∧ r = .storeToDeviceRegister a) ∨
    (isDevice a = false ∧ a ∈ s.params.ioExtra ∧ r = .ioExtraAccess a)

/-! ### What stays unchanged -/

/-- Every register outside the list reads as before. -/
def SameRegsExcept (rs : List Reg) (s t : State) : Prop := ∀ r, r ∉ rs → t.readReg r = s.readReg r

/-- N, Z, P are as before. -/
def SameCodes (s t : State) : Prop := t.n = s.n ∧ t.z = s.z ∧ t.p = s.p

/-- Every word of memory reads as before. -/
def SameMemory (s t : State) : Prop := ∀ a : Nat, t.mem.read a = s.mem.read a

/-- Every word of memory outside one address reads as before. -/
def SameMemoryExcept (a : Word) (s t : State) : Prop := ∀ b : Nat, b ≠ a.toNat → t.mem.read b = s.mem.read b

/-- The video device and the screen are as before. -/
def SameScreen (s t : State) : Prop :=
  t.output = s.output ∧ t.crtReady = s.crtReady ∧ t.crtData = s.crtData

/-- The keyboard and what it still has to deliver are as before. -/
def SameKeyboard (s t : State) : Prop :=
  t.kbdReady = s.kbdReady ∧ t.kbdData = s.kbdData ∧ t.kbdInput = s.kbdInput

/-- The pending interrupts and the parameters are as before. -/
def SameRequests (s t : State) : Prop := t.pending = s.pending ∧ t.params = s.params

/-- No device register, device or parameter is changed. -/
def SameDevices (s t : State) : Prop :=
  SameScreen s t ∧ SameKeyboard s t ∧ SameRequests s t ∧ t.clockEnable = s.clockEnable

/-- What a read of an address changes outside the processor: a read of KBDR clears KBSR[15], any other read changes
nothing (20_memory.md R65). -/
def ReadEffect (s : State) (a : Word) (t : State) : Prop :=
  t.kbdReady = (if a = kbdrAddr then false else s.kbdReady) ∧ t.kbdData = s.kbdData ∧ t.kbdInput = s.kbdInput ∧
    SameScreen s t ∧ SameRequests s t ∧ t.clockEnable = s.clockEnable ∧ SameMemory s t

/-- What a store to an address changes outside the processor (20_memory.md R54): a character displayed, the clock enable
bit, or one memory word; nothing else. -/
def StoreEffect (s : State) (a v : Word) (t : State) : Prop :=
  SameKeyboard s t ∧ SameRequests s t ∧
    if a = crtdrAddr then
      t.output = s.output ++ [v.extractLsb' 0 8] ∧ t.crtReady = false ∧ t.crtData = v.extractLsb' 0 8 ∧
        t.clockEnable = s.clockEnable ∧ SameMemory s t
    else if a = mcrAddr then
      t.clockEnable = v.getLsbD 15 ∧ SameScreen s t ∧ SameMemory s t
    else
      t.mem.read a.toNat = v ∧ SameMemoryExcept a s t ∧ SameScreen s t ∧ t.clockEnable = s.clockEnable

/-! ### The condition codes -/

/-- N, Z, P say whether the word, read as a 16-bit two's complement integer, is negative, zero or positive
(10_state.md R27). -/
def CodesOf (v : Word) (t : State) : Prop :=
  t.n = decide (v.toInt < 0) ∧ t.z = decide (v.toInt = 0) ∧ t.p = decide (0 < v.toInt)

/-- Exactly one of N, Z, P is 1 (10_state.md R28). -/
def ExactlyOneCode (t : State) : Prop :=
  (t.n = true ∧ t.z = false ∧ t.p = false) ∨ (t.n = false ∧ t.z = true ∧ t.p = false) ∨
    (t.n = false ∧ t.z = false ∧ t.p = true)

/-- What the interrupt entry pushes gives the codes back: NZP_LAYOUT and "its inverse" (00_scope.md R6; log 13). -/
abbrev LayoutHasInverse (l : NzpLayout) : Prop :=
  ∀ n z p : Bool, poppedCodes l (pushedWord l ⟨n, z, p⟩) = ⟨n, z, p⟩

/-! ### The keyboard's input -/

/-- What is left of KBD_INPUT after some characters have been taken. -/
def afterKeys : Nat → KbdInput → KbdInput
  | 0, i => i
  | k + 1, i =>
    match nextTyped i with
    | none => i
    | some r => afterKeys k r.2

/-- The character of KBD_INPUT of a number: one of those that come first, or one of the endless rest, or none. -/
def keyNumber (i : KbdInput) (k : Nat) : Option Byte :=
  if k < i.typed.length then i.typed[k]? else i.endless.map fun e => Config.freeKey (e + (k - i.typed.length))

/-- The next character arrives at the keyboard, where none was waiting (60_exceptions.md R181). -/
def KeyArrives (s t : State) : Prop :=
  s.kbdReady = false ∧ t.kbdReady = true ∧ nextTyped s.kbdInput = some (t.kbdData, t.kbdInput)

/-! ### Strings of the contract of PUTS -/

/-- A string at an address: one character per word in bits [7:0], consecutive memory words, ended by a word x0000
(44_system.md R157; log 29). -/
def StringAt (s : State) : Word → List Byte → Prop
  | a, [] => isMemory s a = true ∧ s.mem.read a.toNat = 0
  | a, c :: rest =>
    isMemory s a = true ∧ s.mem.read a.toNat ≠ 0 ∧ lowByte (s.mem.read a.toNat) = c ∧ StringAt s (a + 1) rest

/-- The next character a keyboard user of the contracts gets: the waiting one, else the first still to arrive. -/
def nextKey (s : State) : Option Byte := if s.kbdReady then some s.kbdData else keyNumber s.kbdInput 0

/-- What is still to arrive after one character has been taken. -/
def inputAfterKey (s : State) : KbdInput := if s.kbdReady then s.kbdInput else afterKeys 1 s.kbdInput

/-- Every memory word outside the operating system's own area reads as before (44_system.md R160; log 28). -/
def SameUserMemory (s t : State) : Prop :=
  ∀ a : Word, a ∉ s.params.osArea → t.mem.read a.toNat = s.mem.read a.toNat

/-! ### Which instruction writes what -/

/-- "ADD, AND, NOT, LD, LDI, LDR, LEA": the seven instructions that set the codes (10_state.md R26). -/
def setsCodes : Instr → Bool
  | .addReg _ _ _ | .addImm _ _ _ | .andReg _ _ _ | .andImm _ _ _ | .not _ _ => true
  | .ld _ _ | .ldi _ _ | .ldr _ _ _ | .lea _ _ => true
  | .br _ _ _ _ | .jsr _ | .jmp _ | .jsrr _ _ | .jmpr _ _ | .ret => false
  | .st _ _ | .sti _ _ | .str _ _ _ | .trap _ | .rti => false

/-- BR, JSR, JMP, JSRR, JMPR, RET, RTI, TRAP: the instructions that write the PC again (10_state.md R24). -/
def writesPc : Instr → Bool
  | .br _ _ _ _ | .jsr _ | .jmp _ | .jsrr _ _ | .jmpr _ _ | .ret | .trap _ | .rti => true
  | .addReg _ _ _ | .addImm _ _ _ | .andReg _ _ _ | .andImm _ _ _ | .not _ _ => false
  | .ld _ _ | .ldi _ _ | .ldr _ _ _ | .lea _ _ | .st _ _ | .sti _ _ | .str _ _ _ => false

/-- ST, STI, STR: the instructions that make a write access (20_memory.md R55). -/
def isStore : Instr → Bool
  | .st _ _ | .sti _ _ | .str _ _ _ => true
  | .addReg _ _ _ | .addImm _ _ _ | .andReg _ _ _ | .andImm _ _ _ | .not _ _ => false
  | .ld _ _ | .ldi _ _ | .ldr _ _ _ | .lea _ _ => false
  | .br _ _ _ _ | .jsr _ | .jmp _ | .jsrr _ _ | .jmpr _ _ | .ret | .trap _ | .rti => false

/-- The registers an instruction writes: the DR it names, R7 as the link, R6 by RTI (10_state.md R23). -/
def writtenRegs : Instr → List Reg
  | .addReg dr _ _ | .addImm dr _ _ | .andReg dr _ _ | .andImm dr _ _ | .not dr _ => [dr]
  | .ld dr _ | .ldi dr _ | .ldr dr _ _ | .lea dr _ => [dr]
  | .jsr _ | .jsrr _ _ | .trap _ => [7]
  | .rti => [6]
  | .br _ _ _ _ | .jmp _ | .jmpr _ _ | .ret | .st _ _ | .sti _ _ | .str _ _ _ => []

end Sys2Proof.Machine
end

