-- ==== Sys2Proof/Certificates/Slice0/Obligations.lean ====
section
/-! DEFINITION. The statements made of the model, each from the rule of spec/ its docstring names. -/

open Sys2Proof Sys2Proof.Machine

/-! ### Encoding -/

/-- Every instruction's word decodes to it, with every operand at every value (30_encoding.md R82, R91). -/
def Obligations.DecodeReturnsEncodedInstruction : Prop :=
  ∀ i : Instr, decode (encode i) = some i

/-- Every word that decodes has one meaning: it is the word of the instruction it decodes to (30_encoding.md R82, R83). -/
def Obligations.EncodeReturnsDecodedWord : Prop :=
  ∀ (w : Word) (i : Instr), decode w = some i → encode i = w

/-- The twenty worked examples of the source, assembled (95_test_vectors.md E1 to E20). -/
def Obligations.SpecExampleWordsDecode : Prop :=
  decode 0x14C4 = some (.addReg 2 3 4) ∧ decode 0x14E7 = some (.addImm 2 3 7) ∧
  decode 0x54C4 = some (.andReg 2 3 4) ∧ decode 0x54E7 = some (.andImm 2 3 7) ∧
  decode 0x0605 = some (.br false true true 5) ∧ decode 0x4840 = some (.jsr 0x40) ∧
  decode 0x4040 = some (.jmp 0x40) ∧ decode 0xC88A = some (.jsrr 2 10) ∧
  decode 0xC08A = some (.jmpr 2 10) ∧ decode 0x2810 = some (.ld 4 0x10) ∧
  decode 0xA811 = some (.ldi 4 0x11) ∧ decode 0x688A = some (.ldr 4 2 10) ∧
  decode 0xE840 = some (.lea 4 0x40) ∧ decode 0x98BF = some (.not 4 2) ∧
  decode 0xD000 = some .ret ∧ decode 0x8000 = some .rti ∧
  decode 0x3810 = some (.st 4 0x10) ∧ decode 0xB811 = some (.sti 4 0x11) ∧
  decode 0x788A = some (.str 4 2 10) ∧ decode 0xF023 = some (.trap 0x23)

/-- The words whose opcode is assigned but whose fixed bits differ from Figure A.1, and no others, decode to nothing,
and a step that fetches one is refused (30_encoding.md R92). -/
def Obligations.WrongFixedBitsAreUndefined : Prop :=
  (∀ w : Word, decode w = none ↔
    ((w.extractLsb' 12 4 = 0x1 ∨ w.extractLsb' 12 4 = 0x5) ∧ w.getLsbD 5 = false ∧ w.extractLsb' 3 2 ≠ 0) ∨
    ((w.extractLsb' 12 4 = 0x4 ∨ w.extractLsb' 12 4 = 0xC) ∧ w.extractLsb' 9 2 ≠ 0) ∨
    (w.extractLsb' 12 4 = 0x9 ∧ w.extractLsb' 0 6 ≠ 0x3F) ∨
    ((w.extractLsb' 12 4 = 0xD ∨ w.extractLsb' 12 4 = 0x8) ∧ w.extractLsb' 0 12 ≠ 0) ∨
    (w.extractLsb' 12 4 = 0xF ∧ w.extractLsb' 8 4 ≠ 0)) ∧
  ∀ s : State, s.clockEnable = true → takeRequest (agentsTurn s) = none → isMemory s s.pc = true →
    decode (s.mem.read s.pc.toNat) = none → step s = .refused (.undefinedWord (s.mem.read s.pc.toNat))

/-! ### Operate instructions -/

/-- ADD, register form (40_operate.md R110): its words, the sum modulo 2^16, the codes, and nothing else. -/
def Obligations.AddRegisterWrapsAndSetsCodes : Prop :=
  (∀ w : Word, decode w = some (.addReg (w.extractLsb' 9 3) (w.extractLsb' 6 3) (w.extractLsb' 0 3)) ↔
    w &&& 0xF038 = 0x1000) ∧
  ∀ (dr sr1 sr2 : Reg) (s : State), ∃ t, exec (.addReg dr sr1 sr2) s = .next t ∧
    (t.readReg dr).toNat = ((s.readReg sr1).toNat + (s.readReg sr2).toNat) % 65536 ∧
    CodesOf (t.readReg dr) t ∧ SameRegsExcept [dr] s t ∧ t.pc = s.pc ∧ SameMemory s t ∧ SameDevices s t

/-- ADD, immediate form (40_operate.md R111): the immediate is -16 to 15. -/
def Obligations.AddImmediateWrapsAndSetsCodes : Prop :=
  (∀ w : Word, decode w = some (.addImm (w.extractLsb' 9 3) (w.extractLsb' 6 3) (w.extractLsb' 0 5)) ↔
    w &&& 0xF020 = 0x1020) ∧
  ∀ (dr sr1 : Reg) (imm5 : BitVec 5) (s : State), ∃ t, exec (.addImm dr sr1 imm5) s = .next t ∧
    ((t.readReg dr).toNat : Int) = ((s.readReg sr1).toNat + imm5.toInt) % 65536 ∧
    CodesOf (t.readReg dr) t ∧ SameRegsExcept [dr] s t ∧ t.pc = s.pc ∧ SameMemory s t ∧ SameDevices s t

/-- AND, register form (40_operate.md R112). -/
def Obligations.AndRegisterIsBitwiseAndSetsCodes : Prop :=
  (∀ w : Word, decode w = some (.andReg (w.extractLsb' 9 3) (w.extractLsb' 6 3) (w.extractLsb' 0 3)) ↔
    w &&& 0xF038 = 0x5000) ∧
  ∀ (dr sr1 sr2 : Reg) (s : State), ∃ t, exec (.andReg dr sr1 sr2) s = .next t ∧
    (∀ i < 16, (t.readReg dr).getLsbD i = ((s.readReg sr1).getLsbD i && (s.readReg sr2).getLsbD i)) ∧
    CodesOf (t.readReg dr) t ∧ SameRegsExcept [dr] s t ∧ t.pc = s.pc ∧ SameMemory s t ∧ SameDevices s t

/-- AND, immediate form (40_operate.md R113): a negative immediate keeps the upper 11 bits, any other clears them. -/
def Obligations.AndImmediateMasksSignExtended : Prop :=
  (∀ w : Word, decode w = some (.andImm (w.extractLsb' 9 3) (w.extractLsb' 6 3) (w.extractLsb' 0 5)) ↔
    w &&& 0xF020 = 0x5020) ∧
  ∀ (dr sr1 : Reg) (imm5 : BitVec 5) (s : State), ∃ t, exec (.andImm dr sr1 imm5) s = .next t ∧
    (∀ i < 16, (t.readReg dr).getLsbD i =
      ((s.readReg sr1).getLsbD i && (if i < 5 then imm5.getLsbD i else imm5.getLsbD 4))) ∧
    CodesOf (t.readReg dr) t ∧ SameRegsExcept [dr] s t ∧ t.pc = s.pc ∧ SameMemory s t ∧ SameDevices s t

/-- NOT (40_operate.md R114): xFFFF minus the source. -/
def Obligations.NotInvertsAndSetsCodes : Prop :=
  (∀ w : Word, decode w = some (.not (w.extractLsb' 9 3) (w.extractLsb' 6 3)) ↔ w &&& 0xF03F = 0x903F) ∧
  ∀ (dr sr : Reg) (s : State), ∃ t, exec (.not dr sr) s = .next t ∧
    (t.readReg dr).toNat = 65535 - (s.readReg sr).toNat ∧
    CodesOf (t.readReg dr) t ∧ SameRegsExcept [dr] s t ∧ t.pc = s.pc ∧ SameMemory s t ∧ SameDevices s t

/-! ### Control instructions -/

/-- BR (41_control.md R120): taken exactly when a tested code is set, to the page of the incremented PC. -/
def Obligations.BranchTakenOnTestedCode : Prop :=
  (∀ w : Word, decode w = some (.br (w.getLsbD 11) (w.getLsbD 10) (w.getLsbD 9) (w.extractLsb' 0 9)) ↔
    w &&& 0xF000 = 0x0000) ∧
  ∀ (n z p : Bool) (off9 : BitVec 9) (s : State), ∃ t, exec (.br n z p off9) s = .next t ∧
    (((n = true ∧ s.n = true) ∨ (z = true ∧ s.z = true) ∨ (p = true ∧ s.p = true)) →
      t.pc = s.pc.extractLsb' 9 7 ++ off9) ∧
    (¬((n = true ∧ s.n = true) ∨ (z = true ∧ s.z = true) ∨ (p = true ∧ s.p = true)) → t.pc = s.pc) ∧
    SameRegsExcept [] s t ∧ SameCodes s t ∧ SameMemory s t ∧ SameDevices s t

/-- JSR (41_control.md R121): the incremented PC goes to R7. -/
def Obligations.JsrLinksAndJumpsInPage : Prop :=
  (∀ w : Word, decode w = some (.jsr (w.extractLsb' 0 9)) ↔ w &&& 0xFE00 = 0x4800) ∧
  ∀ (off9 : BitVec 9) (s : State), ∃ t, exec (.jsr off9) s = .next t ∧
    t.readReg 7 = s.pc ∧ t.pc = s.pc.extractLsb' 9 7 ++ off9 ∧
    SameRegsExcept [7] s t ∧ SameCodes s t ∧ SameMemory s t ∧ SameDevices s t

/-- JMP (41_control.md R122): no link. -/
def Obligations.JmpJumpsInPageWithoutLink : Prop :=
  (∀ w : Word, decode w = some (.jmp (w.extractLsb' 0 9)) ↔ w &&& 0xFE00 = 0x4000) ∧
  ∀ (off9 : BitVec 9) (s : State), ∃ t, exec (.jmp off9) s = .next t ∧
    t.pc = s.pc.extractLsb' 9 7 ++ off9 ∧
    SameRegsExcept [] s t ∧ SameCodes s t ∧ SameMemory s t ∧ SameDevices s t

/-- JSRR (41_control.md R123): R7 is written before BaseR is read, so with BaseR = R7 the base is the link value. -/
def Obligations.JsrrLinksBeforeReadingBase : Prop :=
  (∀ w : Word, decode w = some (.jsrr (w.extractLsb' 6 3) (w.extractLsb' 0 6)) ↔ w &&& 0xFE00 = 0xC800) ∧
  ∀ (baseR : Reg) (index6 : BitVec 6) (s : State), ∃ t, exec (.jsrr baseR index6) s = .next t ∧
    t.readReg 7 = s.pc ∧
    t.pc.toNat = ((if baseR = 7 then s.pc else s.readReg baseR).toNat + index6.toNat) % 65536 ∧
    SameRegsExcept [7] s t ∧ SameCodes s t ∧ SameMemory s t ∧ SameDevices s t

/-- JMPR (41_control.md R124): the offset is never negative and the sum wraps; no link. -/
def Obligations.JmprJumpsToBasePlusIndex : Prop :=
  (∀ w : Word, decode w = some (.jmpr (w.extractLsb' 6 3) (w.extractLsb' 0 6)) ↔ w &&& 0xFE00 = 0xC000) ∧
  ∀ (baseR : Reg) (index6 : BitVec 6) (s : State), ∃ t, exec (.jmpr baseR index6) s = .next t ∧
    t.pc.toNat = ((s.readReg baseR).toNat + index6.toNat) % 65536 ∧
    SameRegsExcept [] s t ∧ SameCodes s t ∧ SameMemory s t ∧ SameDevices s t

/-- RET (41_control.md R125): to whatever R7 holds. That JMPR R7, #0 answers the same next state is R124's corner case; the
source draws no such connection and 95_test_vectors.md marks it as derived. -/
def Obligations.RetJumpsThroughLinkRegister : Prop :=
  (∀ w : Word, decode w = some .ret ↔ w = 0xD000) ∧
  ∀ s : State, ∃ t, exec .ret s = .next t ∧ exec (.jmpr 7 0) s = .next t ∧ t.pc = s.readReg 7 ∧
    SameRegsExcept [] s t ∧ SameCodes s t ∧ SameMemory s t ∧ SameDevices s t

/-! ### Loads -/

/-- LD (42_loads.md R130), from memory and device registers alike; only an address in IO_EXTRA is refused (log 19). That a
read of KBDR clears its ready bit is presumed (20_memory.md R65, 60_exceptions.md R181; D15, log 25). -/
def Obligations.LdLoadsFromPage : Prop :=
  (∀ w : Word, decode w = some (.ld (w.extractLsb' 9 3) (w.extractLsb' 0 9)) ↔ w &&& 0xF000 = 0x2000) ∧
  ∀ (dr : Reg) (off9 : BitVec 9) (s : State),
    (canRead s (pgaddr s.pc off9) → ∃ t, exec (.ld dr off9) s = .next t ∧
      ReadsAs s (pgaddr s.pc off9) (t.readReg dr) ∧ ReadEffect s (pgaddr s.pc off9) t ∧
      CodesOf (t.readReg dr) t ∧ SameRegsExcept [dr] s t ∧ t.pc = s.pc) ∧
    (¬canRead s (pgaddr s.pc off9) → exec (.ld dr off9) s = .refused (.ioExtraAccess (pgaddr s.pc off9)))

/-- LDI (42_loads.md R131): the pointer is read first, then the data it points to; the codes are those of the data. Either
read may be a device register's, by the presumed protocol (D15, D17, log 7, 25), and the devices may act between the two
(log 9). The third clause is the plain case of two memory words. The last two say where LDI is refused: the pointer's
address or the data's is in IO_EXTRA (log 19). -/
def Obligations.LdiLoadsThroughPointer : Prop :=
  (∀ w : Word, decode w = some (.ldi (w.extractLsb' 9 3) (w.extractLsb' 0 9)) ↔ w &&& 0xF000 = 0xA000) ∧
  (∀ (dr : Reg) (off9 : BitVec 9) (s : State), canRead s (pgaddr s.pc off9) →
    (∀ q, ReadsAs s (pgaddr s.pc off9) q → canRead s q) →
    ∃ q m v u t, memRead (pgaddr s.pc off9) s = .next (q, m) ∧
      memRead q (betweenAccesses (pgaddr s.pc off9) m) = .next (v, u) ∧ exec (.ldi dr off9) s = .next t ∧
      t.readReg dr = v ∧ CodesOf v t ∧ SameRegsExcept [dr] s t ∧ t.pc = s.pc ∧ SameMemory s t ∧
      t.output = s.output ∧ t.clockEnable = s.clockEnable ∧ SameRequests s t ∧ SameDevices u t) ∧
  (∀ (dr : Reg) (off9 : BitVec 9) (s : State), isMemory s (pgaddr s.pc off9) = true →
    isMemory s (s.mem.read (pgaddr s.pc off9).toNat) = true →
    ∃ t, exec (.ldi dr off9) s = .next t ∧
      t.readReg dr = s.mem.read (s.mem.read (pgaddr s.pc off9).toNat).toNat ∧ SameDevices s t) ∧
  (∀ (dr : Reg) (off9 : BitVec 9) (s : State), ¬canRead s (pgaddr s.pc off9) →
    exec (.ldi dr off9) s = .refused (.ioExtraAccess (pgaddr s.pc off9))) ∧
  ∀ (dr : Reg) (off9 : BitVec 9) (s : State) (q : Word) (m : State), memRead (pgaddr s.pc off9) s = .next (q, m) →
    ¬canRead s q → exec (.ldi dr off9) s = .refused (.ioExtraAccess q)

/-- LDR (42_loads.md R132): the index is zero-extended and the sum wraps (log 22); the base is read before DR is written.
That a read of KBDR clears its ready bit is presumed (20_memory.md R65, 60_exceptions.md R181; D15, log 25). -/
def Obligations.LdrLoadsFromBasePlusIndex : Prop :=
  (∀ w : Word, decode w = some (.ldr (w.extractLsb' 9 3) (w.extractLsb' 6 3) (w.extractLsb' 0 6)) ↔
    w &&& 0xF000 = 0x6000) ∧
  ∀ (dr baseR : Reg) (index6 : BitVec 6) (s : State) (a : Word),
    a.toNat = ((s.readReg baseR).toNat + index6.toNat) % 65536 →
    (canRead s a → ∃ t, exec (.ldr dr baseR index6) s = .next t ∧
      ReadsAs s a (t.readReg dr) ∧ ReadEffect s a t ∧
      CodesOf (t.readReg dr) t ∧ SameRegsExcept [dr] s t ∧ t.pc = s.pc) ∧
    (¬canRead s a → exec (.ldr dr baseR index6) s = .refused (.ioExtraAccess a))

/-- LEA (42_loads.md R133): the address itself, and the codes of it; no memory access. -/
def Obligations.LeaLoadsPageAddress : Prop :=
  (∀ w : Word, decode w = some (.lea (w.extractLsb' 9 3) (w.extractLsb' 0 9)) ↔ w &&& 0xF000 = 0xE000) ∧
  ∀ (dr : Reg) (off9 : BitVec 9) (s : State), ∃ t, exec (.lea dr off9) s = .next t ∧
    t.readReg dr = s.pc.extractLsb' 9 7 ++ off9 ∧
    CodesOf (t.readReg dr) t ∧ SameRegsExcept [dr] s t ∧ t.pc = s.pc ∧ SameMemory s t ∧ SameDevices s t

/-! ### Stores -/

/-- ST (43_stores.md R140), to memory and device registers alike. That a store to CRTDR clears its ready bit is presumed
(60_exceptions.md R183; D16, log 26); that MCR takes bit 15 alone is the spec's decision (D17, D18, log 27); a store that
the spec leaves undefined is refused (log 19, 20, 21). -/
def Obligations.StStoresToPage : Prop :=
  (∀ w : Word, decode w = some (.st (w.extractLsb' 9 3) (w.extractLsb' 0 9)) ↔ w &&& 0xF000 = 0x3000) ∧
  ∀ (sr : Reg) (off9 : BitVec 9) (s : State),
    (canWrite s (pgaddr s.pc off9) → ∃ t, exec (.st sr off9) s = .next t ∧
      StoreEffect s (pgaddr s.pc off9) (s.readReg sr) t ∧ SameRegsExcept [] s t ∧ SameCodes s t ∧ t.pc = s.pc) ∧
    (¬canWrite s (pgaddr s.pc off9) →
      ∃ r, exec (.st sr off9) s = .refused r ∧ WriteRefusal s (pgaddr s.pc off9) r)

/-- STI (43_stores.md R141): the pointer is read, then the word it points to is written, on the devices as they are by then
(log 9). That a read of KBDR clears its ready bit and a store to CRTDR clears the display's is presumed (D15, D16, log 25,
26); that MCR takes bit 15 alone is the spec's decision (D17, D18, log 27). The third clause is the plain case of a pointer
in memory. The last two say where STI is refused: the pointer's address in IO_EXTRA (log 19), or a pointer to where no store
has a meaning (log 19, 20, 21). -/
def Obligations.StiStoresThroughPointer : Prop :=
  (∀ w : Word, decode w = some (.sti (w.extractLsb' 9 3) (w.extractLsb' 0 9)) ↔ w &&& 0xF000 = 0xB000) ∧
  (∀ (sr : Reg) (off9 : BitVec 9) (s : State) (q : Word) (m : State),
    memRead (pgaddr s.pc off9) s = .next (q, m) → canWrite (betweenAccesses (pgaddr s.pc off9) m) q →
    ∃ t, exec (.sti sr off9) s = .next t ∧
      StoreEffect (betweenAccesses (pgaddr s.pc off9) m) q (s.readReg sr) t ∧
      SameRegsExcept [] s t ∧ SameCodes s t ∧ t.pc = s.pc ∧ SameRequests s t ∧ SameMemoryExcept q s t ∧
      t.output = (if q = 0xF3FF then s.output ++ [(s.readReg sr).extractLsb' 0 8] else s.output) ∧
      t.clockEnable = (if q = 0xF402 then (s.readReg sr).getLsbD 15 else s.clockEnable)) ∧
  (∀ (sr : Reg) (off9 : BitVec 9) (s : State), isMemory s (pgaddr s.pc off9) = true →
    canWrite s (s.mem.read (pgaddr s.pc off9).toNat) →
    ∃ t, exec (.sti sr off9) s = .next t ∧
      StoreEffect s (s.mem.read (pgaddr s.pc off9).toNat) (s.readReg sr) t ∧
      SameRegsExcept [] s t ∧ SameCodes s t ∧ t.pc = s.pc) ∧
  (∀ (sr : Reg) (off9 : BitVec 9) (s : State), ¬canRead s (pgaddr s.pc off9) →
    exec (.sti sr off9) s = .refused (.ioExtraAccess (pgaddr s.pc off9))) ∧
  ∀ (sr : Reg) (off9 : BitVec 9) (s : State) (q : Word) (m : State), memRead (pgaddr s.pc off9) s = .next (q, m) →
    ¬canWrite (betweenAccesses (pgaddr s.pc off9) m) q →
    ∃ r, exec (.sti sr off9) s = .refused r ∧ WriteRefusal (betweenAccesses (pgaddr s.pc off9) m) q r

/-- STR (43_stores.md R142): the offset is zero-extended and the sum wraps (log 22). That a store to CRTDR clears its ready
bit is presumed (60_exceptions.md R183; D16, log 26); that MCR takes bit 15 alone is the spec's decision (D17, D18, log 27);
a store that the spec leaves undefined is refused (log 19, 20, 21). -/
def Obligations.StrStoresToBasePlusIndex : Prop :=
  (∀ w : Word, decode w = some (.str (w.extractLsb' 9 3) (w.extractLsb' 6 3) (w.extractLsb' 0 6)) ↔
    w &&& 0xF000 = 0x7000) ∧
  (∀ (baseR : Reg) (index6 : BitVec 6) (s : State),
    (baseIndex (s.readReg baseR) index6).toNat = ((s.readReg baseR).toNat + index6.toNat) % 65536) ∧
  ∀ (sr baseR : Reg) (index6 : BitVec 6) (s : State),
    (canWrite s (baseIndex (s.readReg baseR) index6) → ∃ t, exec (.str sr baseR index6) s = .next t ∧
      StoreEffect s (baseIndex (s.readReg baseR) index6) (s.readReg sr) t ∧
      SameRegsExcept [] s t ∧ SameCodes s t ∧ t.pc = s.pc) ∧
    (¬canWrite s (baseIndex (s.readReg baseR) index6) →
      ∃ r, exec (.str sr baseR index6) s = .refused r ∧ WriteRefusal s (baseIndex (s.readReg baseR) index6) r)

/-! ### System instructions -/

/-- TRAP (44_system.md R150, R153, 60_exceptions.md R173): the return address in R7, the table entry in the PC, nothing
else; the vectors x00 to x1F are refused. In contract mode the five vectors of Table A.3 are not meant here (R154). -/
def Obligations.TrapLinksAndJumpsThroughTable : Prop :=
  (∀ w : Word, decode w = some (.trap (w.extractLsb' 0 8)) ↔ w &&& 0xFF00 = 0xF000) ∧
  (∀ (v : BitVec 8) (s : State), v.toNat < 0x20 → exec (.trap v) s = .refused (.reservedTrapVector v)) ∧
  ∀ (v : BitVec 8) (s : State), 0x20 ≤ v.toNat →
    (s.params.trapModel = .image ∨ v ∉ [0x20, 0x21, 0x22, 0x23, 0x25]) →
    ((v.setWidth 16 : Word) ∉ s.params.ioExtra → ∃ t, exec (.trap v) s = .next t ∧
      t.readReg 7 = s.pc ∧ t.pc = s.mem.read v.toNat ∧
      SameRegsExcept [7] s t ∧ SameCodes s t ∧ SameMemory s t ∧ SameDevices s t) ∧
    ((v.setWidth 16 : Word) ∈ s.params.ioExtra → exec (.trap v) s = .refused (.ioExtraAccess (v.setWidth 16)))

/-- RTI (44_system.md R151): the codes from the word at R6 by NZP_LAYOUT (log 13), the PC from the word below it, R6 two less
(log 22). The second read sees the devices as they are by then (log 9), by the presumed protocol (D15, log 25). The last two
clauses say where RTI is refused: a stack address in IO_EXTRA (log 19). -/
def Obligations.RtiPopsCodesThenPc : Prop :=
  (∀ w : Word, decode w = some .rti ↔ w = 0x8000) ∧
  (∀ s : State, canRead s (s.readReg 6) → canRead s (s.readReg 6 - 1) →
    ∃ w m t, memRead (s.readReg 6) s = .next (w, m) ∧ exec .rti s = .next t ∧
      t.codes = poppedCodes s.params.nzpLayout w ∧
      ReadsAs (betweenAccesses (s.readReg 6) m) (s.readReg 6 - 1) t.pc ∧
      t.readReg 6 = s.readReg 6 - 2 ∧ SameRegsExcept [6] s t ∧ SameMemory s t ∧
      t.output = s.output ∧ t.clockEnable = s.clockEnable ∧ SameRequests s t ∧
      (isMemory s (s.readReg 6) = true → w = s.mem.read (s.readReg 6).toNat ∧ ReadEffect s (s.readReg 6 - 1) t)) ∧
  (∀ s : State, ¬canRead s (s.readReg 6) → exec .rti s = .refused (.ioExtraAccess (s.readReg 6))) ∧
  ∀ s : State, canRead s (s.readReg 6) → ¬canRead s (s.readReg 6 - 1) →
    exec .rti s = .refused (.ioExtraAccess (s.readReg 6 - 1))

/-- NZP_LAYOUT with one bit of the word for each code, as in the spec's default of bits 2, 1 and 0 (00_scope.md R6; D11,
log 13): those three bits are the codes, the others are ignored when popped and 0 when pushed, and three different bits have
the inverse the interrupt entry needs. -/
def Obligations.NzpLayoutOfBits : Prop :=
  State.reset.params.nzpLayout = .bits 2 1 0 ∧
  ∀ nBit zBit pBit : Fin 16,
    (∀ w : Word, poppedCodes (.bits nBit zBit pBit) w = ⟨w.getLsbD nBit, w.getLsbD zBit, w.getLsbD pBit⟩) ∧
    (∀ (c : Codes) (i : Fin 16), i ≠ nBit → i ≠ zBit → i ≠ pBit →
      (pushedWord (.bits nBit zBit pBit) c).getLsbD i = false) ∧
    (LayoutHasInverse (.bits nBit zBit pBit) ↔ nBit ≠ zBit ∧ nBit ≠ pBit ∧ zBit ≠ pBit)

/-- NZP_LAYOUT may be any function from a word to (N, Z, P), with any function for the push (00_scope.md R6): for every two
functions some layout says them, so a statement for every layout is one for every function (log 13). -/
def Obligations.NzpLayoutAdmitsEveryFunction : Prop :=
  ∀ (popped : Word → Codes) (pushed : Codes → Word), ∃ l : NzpLayout,
    (∀ w, poppedCodes l w = popped w) ∧ ∀ c, pushedWord l c = pushed c

/-! ### System calls in contract mode -/

/-- GETC (44_system.md R155): the next character in R0, high byte clear, nothing displayed; it never returns if no
character will arrive. Memory outside the operating system's area stays: the model's assumption, log 28. -/
def Obligations.GetcReturnsNextKey : Prop :=
  ∀ s : State, s.params.trapModel = .contract →
    (∀ c, nextKey s = some c → ∃ t, exec (.trap 0x20) s = .next t ∧
      (t.readReg 0).toNat = c.toNat ∧ t.kbdInput = inputAfterKey s ∧ t.kbdReady = false ∧
      SameScreen s t ∧ t.pc = s.pc ∧ t.clockEnable = s.clockEnable ∧ SameRequests s t ∧ SameUserMemory s t) ∧
    (nextKey s = none → exec (.trap 0x20) s = .fault .noCharacter)

/-- OUT (44_system.md R156): the low byte of R0 is displayed. Memory outside the operating system's area stays: log 28. -/
def Obligations.OutDisplaysLowByteOfR0 : Prop :=
  ∀ s : State, s.params.trapModel = .contract → ∃ t, exec (.trap 0x21) s = .next t ∧
    t.output = s.output ++ [(s.readReg 0).extractLsb' 0 8] ∧ t.pc = s.pc ∧ t.clockEnable = s.clockEnable ∧
    SameKeyboard s t ∧ SameRequests s t ∧ SameUserMemory s t

/-- PUTS (44_system.md R157): the string at R0 is displayed; a string that is not all in memory is refused. The form of a
string is not the source's (log 29); memory outside the operating system's area stays: log 28. -/
def Obligations.PutsDisplaysStringAtR0 : Prop :=
  ∀ s : State, s.params.trapModel = .contract →
    (∀ cs, StringAt s (s.readReg 0) cs → ∃ t, exec (.trap 0x22) s = .next t ∧
      t.output = s.output ++ cs ∧ t.pc = s.pc ∧ t.clockEnable = s.clockEnable ∧
      SameKeyboard s t ∧ SameRequests s t ∧ SameUserMemory s t) ∧
    ((¬∃ cs, StringAt s (s.readReg 0) cs) → ∃ a, exec (.trap 0x22) s = .refused (.stringNotInMemory a))

/-- IN (44_system.md R158): a prompt, the character's echo and perhaps more on the screen, the character in R0. -/
def Obligations.InPromptsAndEchoes : Prop :=
  ∀ s : State, s.params.trapModel = .contract →
    (∀ c, nextKey s = some c → ∃ t prompt after, exec (.trap 0x23) s = .next t ∧
      t.output = s.output ++ prompt ++ [c] ++ after ∧ (t.readReg 0).toNat = c.toNat ∧
      t.kbdInput = inputAfterKey s ∧ t.kbdReady = false ∧ t.pc = s.pc ∧ t.clockEnable = s.clockEnable ∧
      SameRequests s t ∧ SameUserMemory s t) ∧
    (nextKey s = none → exec (.trap 0x23) s = .fault .noCharacter)

/-- HALT (44_system.md R159): a message, then the clock enable bit is clear and the machine takes no further step. -/
def Obligations.HaltPrintsAndStops : Prop :=
  ∀ s : State, s.params.trapModel = .contract → ∃ t message, exec (.trap 0x25) s = .next t ∧
    t.output = s.output ++ message ∧ t.clockEnable = false ∧ step t = .fault .stopped ∧
    SameKeyboard s t ∧ SameRequests s t ∧ SameUserMemory s t

/-! ### Memory, devices and the fetch -/

/-- MemRead (20_memory.md R53): what a read of each address returns and changes; IO_EXTRA is refused (log 19). Undefined
bits are free (D17, log 7); that a read of KBDR clears its ready bit is presumed (D15, log 25). -/
def Obligations.MemReadByAddress : Prop :=
  ∀ (a : Word) (s : State),
    (canRead s a → ∃ w t, memRead a s = .next (w, t) ∧ ReadsAs s a w ∧ ReadEffect s a t ∧
      SameRegsExcept [] s t ∧ SameCodes s t ∧ t.pc = s.pc) ∧
    (¬canRead s a → memRead a s = .refused (.ioExtraAccess a))

/-- MemWrite (20_memory.md R54): what a store to each address does, and the stores that are refused (log 19, 20, 21). That
a store to CRTDR clears its ready bit is presumed (60_exceptions.md R183; D16, log 26); that MCR takes bit 15 alone is the
spec's decision (D17, D18, log 27). -/
def Obligations.MemWriteByAddress : Prop :=
  ∀ (a v : Word) (s : State),
    (canWrite s a → ∃ t, memWrite a v s = .next t ∧ StoreEffect s a v t ∧
      SameRegsExcept [] s t ∧ SameCodes s t ∧ t.pc = s.pc) ∧
    (a = 0xF3FF → s.crtReady = false → memWrite a v s = .refused .displayNotReady) ∧
    (a = 0xF3FC ∨ a = 0xF400 ∨ a = 0xF401 → memWrite a v s = .refused (.storeToDeviceRegister a)) ∧
    (isDevice a = false → a ∈ s.params.ioExtra → memWrite a v s = .refused (.ioExtraAccess a))

/-- The five device registers of Table A.1 and no other address (10_state.md R30, 20_memory.md R57). -/
def Obligations.DeviceRegistersAreTableA1 : Prop :=
  ∀ a : Word, isDevice a = true ↔
    a.toNat = 0xF3FC ∨ a.toNat = 0xF3FF ∨ a.toNat = 0xF400 ∨ a.toNat = 0xF401 ∨ a.toNat = 0xF402

/-- The fetch reads a memory location as it is at that moment; a device register and IO_EXTRA are refused
(20_memory.md R58). -/
def Obligations.FetchReadsMemoryOnly : Prop :=
  ∀ (a : Word) (s : State),
    (isMemory s a = true → fetchWord a s = .next (s.mem.read a.toNat)) ∧
    (isDevice a = true → fetchWord a s = .refused (.fetchFromDevice a)) ∧
    (isDevice a = false → a ∈ s.params.ioExtra → fetchWord a s = .refused (.ioExtraAccess a))

/-- A word stored to memory is what the very next fetch from there returns (20_memory.md R60). -/
def Obligations.StoreIsSeenByNextFetch : Prop :=
  ∀ (a v : Word) (s : State), isMemory s a = true →
    ∃ t, memWrite a v s = .next t ∧ fetchWord a t = .next v ∧
      ∀ b : Word, b ≠ a → fetchWord b t = fetchWord b s

/-- A store to MCR with bit 15 clear completes and stops the machine; everything else survives (60_exceptions.md R186). -/
def Obligations.ClearingClockEnableStops : Prop :=
  ∀ (v : Word) (s : State), v.getLsbD 15 = false →
    ∃ t, memWrite 0xF402 v s = .next t ∧ t = { s with clockEnable := false } ∧ step t = .fault .stopped

/-- The page address (30_encoding.md R88): the page bits of the incremented PC over the nine bits; for an instruction in the
last word of a page, the next page. That it is the incremented PC's page, against the source's prose, is how 90_conflicts.md
C2 is resolved (log 24), and 70_reset_and_hazards.md R209 marks the last-word case as derived. -/
def Obligations.PageAddressUsesIncrementedPc : Prop :=
  ∀ (a : Word) (off9 : BitVec 9),
    pgaddr (a + 1) off9 = (a + 1).extractLsb' 9 7 ++ off9 ∧
    (a.extractLsb' 0 9 ≠ 0x1FF#9 → (pgaddr (a + 1) off9).extractLsb' 9 7 = a.extractLsb' 9 7) ∧
    (a.extractLsb' 0 9 = 0x1FF#9 → (pgaddr (a + 1) off9).extractLsb' 9 7 = a.extractLsb' 9 7 + 1)

/-- setcc (10_state.md R27): the codes say the sign of the word, exactly one is set, and nothing else is written. -/
def Obligations.SetccDescribesWordOneHot : Prop :=
  ∀ (v : Word) (s : State), CodesOf v (s.setcc v) ∧ ExactlyOneCode (s.setcc v) ∧
    SameRegsExcept [] s (s.setcc v) ∧ SameMemory s (s.setcc v) ∧ SameDevices s (s.setcc v) ∧
    (s.setcc v).pc = s.pc

/-! ### Interrupts -/

/-- Interrupt entry (60_exceptions.md R176): the PC, then the codes by NZP_LAYOUT's inverse, pushed on the upward stack at
R6. The use of R6, the direction and the push of the codes are derived, not the source's words (log 14); the form of the
pushed word is the layout's (D11, log 13); R6 wraps (log 22). The first clause is the plain case of a stack in memory. The
others take a stack anywhere: each push is a store by MemWrite (log 26, 27), the second on the devices as they are by then
(log 9), and a push that no store has a meaning for is refused (log 19, 20, 21). -/
def Obligations.InterruptEntryPushesPcThenCodes : Prop :=
  (∀ (start : Word) (s : State), isMemory s (s.readReg 6 + 1) = true → isMemory s (s.readReg 6 + 2) = true →
    ∃ t, interruptEntry start s = .next t ∧ t.pc = start ∧ t.readReg 6 = s.readReg 6 + 2 ∧
      t.mem.read (s.readReg 6 + 1).toNat = s.pc ∧
      t.mem.read (s.readReg 6 + 2).toNat = pushedWord s.params.nzpLayout s.codes ∧
      (∀ a : Nat, a ≠ (s.readReg 6 + 1).toNat → a ≠ (s.readReg 6 + 2).toNat → t.mem.read a = s.mem.read a) ∧
      SameRegsExcept [6] s t ∧ SameCodes s t ∧ SameDevices s t) ∧
  (∀ (start : Word) (s : State), ¬canWrite s (s.readReg 6 + 1) →
    ∃ r, interruptEntry start s = .refused r ∧ WriteRefusal s (s.readReg 6 + 1) r) ∧
  ∀ (start : Word) (s u : State), memWrite (s.readReg 6 + 1) s.pc s = .next u →
    (canWrite (betweenAccesses (s.readReg 6 + 1) u) (s.readReg 6 + 2) →
      ∃ t, interruptEntry start s = .next t ∧ t.pc = start ∧ t.readReg 6 = s.readReg 6 + 2 ∧
        StoreEffect (betweenAccesses (s.readReg 6 + 1) u) (s.readReg 6 + 2) (pushedWord s.params.nzpLayout s.codes) t ∧
        SameRegsExcept [6] s t ∧ SameCodes s t ∧ SameRequests s t) ∧
    (¬canWrite (betweenAccesses (s.readReg 6 + 1) u) (s.readReg 6 + 2) →
      ∃ r, interruptEntry start s = .refused r ∧
        WriteRefusal (betweenAccesses (s.readReg 6 + 1) u) (s.readReg 6 + 2) r)

/-- Interrupt return (60_exceptions.md R177): a service routine that leaves R6 and the two pushed words as the entry left
them, whatever else it does, returns by RTI to the interrupted PC with the interrupted codes and R6. It rests on the entry
that R176 derives (log 14) and on a layout that has its inverse (log 13). -/
def Obligations.RtiUndoesInterruptEntry : Prop :=
  ∀ (start : Word) (s t u : State), isMemory s (s.readReg 6 + 1) = true → isMemory s (s.readReg 6 + 2) = true →
    LayoutHasInverse s.params.nzpLayout → interruptEntry start s = .next t →
    u.params = t.params → u.readReg 6 = t.readReg 6 →
    u.mem.read (s.readReg 6 + 1).toNat = t.mem.read (s.readReg 6 + 1).toNat →
    u.mem.read (s.readReg 6 + 2).toNat = t.mem.read (s.readReg 6 + 2).toNat →
    ∃ v, exec .rti u = .next v ∧ v.pc = s.pc ∧ v.readReg 6 = s.readReg 6 ∧ SameCodes s v ∧
      SameRegsExcept [6] u v ∧ SameMemory u v ∧ SameDevices u v

/-! ### The step -/

/-- With no interrupt pending, a step is the other agents' turn, the PC's increment and the decoded instruction
(10_state.md R24). -/
def Obligations.StepRunsDecodedInstruction : Prop :=
  ∀ (s : State) (i : Instr), s.clockEnable = true → takeRequest (agentsTurn s) = none →
    isMemory s s.pc = true → decode (s.mem.read s.pc.toNat) = some i →
    step s = exec i (agentsTurn s).advancePc ∧ (agentsTurn s).advancePc.pc = s.pc + 1

/-- A pending interrupt is taken before the next instruction: the saved PC is that of the instruction not yet executed
(60_exceptions.md R178). -/
def Obligations.StepTakesPendingInterrupt : Prop :=
  ∀ s : State, s.clockEnable = true → (agentsTurn s).pending ≠ [] →
    ∃ (i : InterruptSource) (u : State), i ∈ (agentsTurn s).pending ∧ step s = interruptEntry i.start u ∧
      u.pc = s.pc ∧ u.pending = (agentsTurn s).pending.erase i ∧
      SameRegsExcept [] s u ∧ SameCodes s u ∧ SameMemory s u

/-- A stopped machine takes no step, and no step of a running machine stops otherwise in image mode
(10_state.md R36, 60_exceptions.md R170). -/
def Obligations.StoppedExactlyWhenClockDisabled : Prop :=
  (∀ s : State, s.clockEnable = false → step s = .fault .stopped) ∧
  ∀ (s : State) (r : Fault), s.params.trapModel = .image → step s = .fault r →
    r = .stopped ∧ s.clockEnable = false

/-- The other agents touch only their own registers (20_memory.md R59, 60_exceptions.md R180, R181, R183): at most the next
character arrives, and only while none is waiting; the display only becomes ready; requests are only added. -/
def Obligations.AgentsTouchOnlyTheirOwn : Prop :=
  ∀ s : State,
    SameRegsExcept [] s (agentsTurn s) ∧ SameCodes s (agentsTurn s) ∧ SameMemory s (agentsTurn s) ∧
    (agentsTurn s).pc = s.pc ∧ (agentsTurn s).output = s.output ∧ (agentsTurn s).crtData = s.crtData ∧
    (agentsTurn s).clockEnable = s.clockEnable ∧ (agentsTurn s).params = s.params ∧
    (SameKeyboard s (agentsTurn s) ∨ KeyArrives s (agentsTurn s)) ∧
    (s.crtReady = true → (agentsTurn s).crtReady = true) ∧
    (∃ q, (agentsTurn s).pending = s.pending ++ q ∧ ∀ i ∈ q, i ∈ s.params.interruptSources)

/-- The devices between two accesses of one instruction (20_memory.md R56, R59, 60_exceptions.md R180): nothing happens when
the first access was to memory, since no program could tell (log 9); otherwise the keyboard and the display may act as
before a step, and touch nothing else (D9, log 25, 26). -/
def Obligations.DevicesBetweenAccessesTouchOnlyTheirOwn : Prop :=
  ∀ (a : Word) (s : State),
    (isDevice a = false → betweenAccesses a s = s) ∧
    SameRegsExcept [] s (betweenAccesses a s) ∧ SameCodes s (betweenAccesses a s) ∧
    SameMemory s (betweenAccesses a s) ∧ SameRequests s (betweenAccesses a s) ∧
    (betweenAccesses a s).pc = s.pc ∧ (betweenAccesses a s).output = s.output ∧
    (betweenAccesses a s).crtData = s.crtData ∧ (betweenAccesses a s).clockEnable = s.clockEnable ∧
    (SameKeyboard s (betweenAccesses a s) ∨ KeyArrives s (betweenAccesses a s)) ∧
    (s.crtReady = true → (betweenAccesses a s).crtReady = true)

/-- KBD_INPUT is a sequence, finite or infinite (00_scope.md R6): the characters the keyboard takes one by one are those of
the sequence in order; a finite one ends after its characters, an infinite one never does (log 11). -/
def Obligations.KeyboardInputIsFiniteOrInfinite : Prop :=
  ∀ i : KbdInput,
    (∀ k : Nat, (nextTyped (afterKeys k i)).map (·.1) = keyNumber i k) ∧
    (∀ k : Nat, keyNumber i k = none ↔ i.endless = none ∧ i.typed.length ≤ k)

/-- A word placed for the next fetch is what the very next step runs (the model's own, log 34). -/
def Obligations.PlacedWordRunsNext : Prop :=
  ∀ (s : State) (w : Nat) (i : Instr), isMemory s s.pc = true → decode (BitVec.ofNat 16 w) = some i →
    w < 65536 → step (s.withFetchWord 16 w) = exec i (agentsTurn (s.withFetchWord 16 w)).advancePc

/-! ### Invariants and whole-machine rules -/

/-- Every step keeps memory canonical and the pending requests distinct and configured. -/
def Obligations.StepKeepsInvariant : Prop :=
  ∀ s t : State, s.Inv → step s = .next t → t.Inv

/-- The start of a run has the invariant. -/
def Obligations.ResetHasInvariant : Prop := State.reset.Inv

/-- What 70_reset_and_hazards.md R204 gives of the start of a run. -/
def Obligations.ResetDevicesAsSpecified : Prop :=
  State.reset.clockEnable = true ∧ State.reset.kbdReady = false ∧ State.reset.output = [] ∧
    State.reset.pending = []

/-- No step changes a run's parameters, takes a character back from the screen or reorders the keyboard's input
(00_scope.md R6, 60_exceptions.md R181, R183). -/
def Obligations.ScreenOnlyGrowsAndInputOnlyDrains : Prop :=
  ∀ s t : State, step s = .next t →
    t.params = s.params ∧ (∃ cs, t.output = s.output ++ cs) ∧ ∃ k, t.kbdInput = afterKeys k s.kbdInput

/-- The seven instructions leave the codes of the word they wrote; of the others only RTI writes the codes
(10_state.md R26). -/
def Obligations.CodesWrittenOnlyByNamedInstructions : Prop :=
  ∀ (i : Instr) (s t : State), s.params.trapModel = .image → exec i s = .next t →
    (setsCodes i = true → ExactlyOneCode t ∧ ∀ r ∈ writtenRegs i, CodesOf (t.readReg r) t) ∧
    (setsCodes i = false → i ≠ .rti → SameCodes s t)

/-- Only BR, JSR, JMP, JSRR, JMPR, RET, RTI and TRAP write the PC after its increment (10_state.md R24). -/
def Obligations.PcWrittenOnlyByControlInstructions : Prop :=
  ∀ (i : Instr) (s t : State), exec i s = .next t → writesPc i = false → t.pc = s.pc

/-- An instruction writes no register but the one it names, R7 as the link and R6 by RTI (10_state.md R23). -/
def Obligations.RegistersWrittenOnlyAsNamed : Prop :=
  ∀ (i : Instr) (s t : State), s.params.trapModel = .image → exec i s = .next t →
    SameRegsExcept (writtenRegs i) s t

/-- Only ST, STI and STR write memory, the screen or the clock enable bit (20_memory.md R55, 60_exceptions.md R188). -/
def Obligations.OnlyStoresWriteOutside : Prop :=
  ∀ (i : Instr) (s t : State), s.params.trapModel = .image → exec i s = .next t → isStore i = false →
    SameMemory s t ∧ t.output = s.output ∧ t.clockEnable = s.clockEnable

/-- No instruction raises an exception (60_exceptions.md R170), and one is refused only for a situation of R171: a
reserved vector, an IO_EXTRA address, a store to a status register or KBDR, a store to a display that is not ready. -/
def Obligations.NoInstructionRaisesAnException : Prop :=
  ∀ (i : Instr) (s : State), s.params.trapModel = .image →
    (∀ r, exec i s ≠ .fault r) ∧
    (∀ r, exec i s = .refused r →
      (∃ v, i = .trap v ∧ v.toNat < 0x20 ∧ r = .reservedTrapVector v) ∨
      (∃ a, a ∈ s.params.ioExtra ∧ r = .ioExtraAccess a) ∨
      (isStore i = true ∧
        ((∃ a, (a = 0xF3FC ∨ a = 0xF400 ∨ a = 0xF401) ∧ r = .storeToDeviceRegister a) ∨
          (s.crtReady = false ∧ r = .displayNotReady))))
end

