-- ==== Sys2Proof/Laws/Decode.lean ====
section
/-! SUPPORT. The opcode table has no overlaps, so a word with a row's fixed bits is that row's instruction. -/

namespace Sys2Proof

/-- Two rows that no word fits both of: they differ in a bit both fix. -/
abbrev OpcodeRow.apart (r q : OpcodeRow) : Prop := r.pattern &&& q.mask ≠ q.pattern &&& r.mask

theorem OpcodeRow.not_fits_of_apart {r q : OpcodeRow} (h : r.apart q) {w : Word} (hr : r.fits w = true) :
    q.fits w = false := by
  simp only [OpcodeRow.fits, beq_iff_eq, beq_eq_false_iff_ne] at hr ⊢
  intro hq
  refine h ?_
  rw [← hr, ← hq, BitVec.and_assoc, BitVec.and_assoc, BitVec.and_comm r.mask q.mask]

/-- The rows are disjoint (30_encoding.md R83). -/
theorem opcodeRows_apart : opcodeRows.Pairwise OpcodeRow.apart := by
  simp only [opcodeRows]
  decide

theorem find_row_of_fits {l : List OpcodeRow} (hl : l.Pairwise OpcodeRow.apart) {r : OpcodeRow} (hr : r ∈ l)
    {w : Word} (hw : r.fits w = true) : l.find? (fun q => q.fits w) = some r := by
  induction l with
  | nil => cases hr
  | cons q rest ih =>
    rw [List.pairwise_cons] at hl
    rcases List.mem_cons.mp hr with rfl | hr
    · simp [hw]
    · have hq : q.fits w = false := by
        refine OpcodeRow.not_fits_of_apart ?_ hw
        exact fun e => hl.1 r hr e.symm
      simp [hq, ih hl.2 hr]

/-- A word with a row's fixed bits decodes by that row (30_encoding.md R83, R91). -/
theorem decode_of_fits {r : OpcodeRow} (hr : r ∈ opcodeRows) {w : Word} (hw : r.fits w = true) :
    decode w = some (r.build w) := by
  rw [decode, find_row_of_fits opcodeRows_apart hr hw]

/-- A word decodes to an instruction only by a row whose fixed bits it has. -/
theorem decode_eq_some {w : Word} {i : Instr} (h : decode w = some i) :
    ∃ r ∈ opcodeRows, r.fits w = true ∧ r.build w = i := by
  unfold decode at h
  split at h
  · next r hr => exact ⟨r, List.mem_of_find?_eq_some hr, by simpa using List.find?_some hr, Option.some.inj h⟩
  · cases h

/-- A word is undefined when it has the fixed bits of no row (30_encoding.md R92). -/
theorem decode_eq_none {w : Word} : decode w = none ↔ ∀ r ∈ opcodeRows, r.fits w = false := by
  unfold decode
  split
  · next r hr =>
    simp only [reduceCtorEq, false_iff, not_forall]
    exact ⟨r, List.mem_of_find?_eq_some hr, by have := List.find?_some hr; simp_all⟩
  · next hn => simpa using List.find?_eq_none.mp hn

end Sys2Proof
end

