-- ==== Sys2Proof/Laws/Memory.lean ====
section
/-! SUPPORT. The memory list: a read after a write, and the canonical form kept. -/

namespace Sys2Proof.Machine

theorem Memory.read_filter (m : Memory) (a b : Nat) :
    Memory.read (m.filter (fun c => c.1 != a)) b = if b = a then Memory.unlisted else Memory.read m b := by
  induction m with
  | nil => simp [Memory.read]
  | cons c rest ih =>
    obtain ⟨k, w⟩ := c
    by_cases hk : k = a
    · subst hk
      by_cases hb : b = k
      · simp [hb] at ih ⊢
        exact ih
      · simp [Memory.read, hb, Ne.symm hb] at ih ⊢
        exact ih
    · by_cases hb : b = a
      · subst hb
        simp [Memory.read, hk] at ih ⊢
        exact ih
      · simp [Memory.read, hk, hb] at ih ⊢
        simp [ih]

theorem Memory.read_insert (m : Memory) (a b : Nat) (v : Word)
    (hm : ∀ c ∈ m, c.1 ≠ a) :
    Memory.read (Memory.insert a v m) b = if b = a then v else Memory.read m b := by
  induction m with
  | nil => by_cases hb : b = a <;> simp [Memory.insert, Memory.read, hb, Ne.symm]
  | cons c rest ih =>
    obtain ⟨k, w⟩ := c
    have hk : k ≠ a := hm (k, w) (by simp)
    have hrest := ih (fun c hc => hm c (List.mem_cons_of_mem _ hc))
    by_cases hb : b = a
    · subst hb
      by_cases hlt : b < k <;> simp [Memory.insert, Memory.read, hlt, hk, hrest]
    · by_cases hlt : a < k <;> simp [Memory.insert, Memory.read, hlt, hb, Ne.symm hb, hrest]

/-- A read after a write: the word written at its address, every other word as before (20_memory.md R53, R54). -/
theorem Memory.read_write (m : Memory) (a b : Nat) (v : Word) :
    Memory.read (m.write a v) b = if b = a then v else Memory.read m b := by
  unfold Memory.write
  split
  · next hv => rw [Memory.read_filter, hv]
  · rw [Memory.read_insert _ _ _ _ (by simp), Memory.read_filter]
    split <;> rfl

@[simp] theorem Memory.read_write_same (m : Memory) (a : Nat) (v : Word) : Memory.read (m.write a v) a = v := by
  simp [Memory.read_write]

@[simp] theorem Memory.read_write_ne (m : Memory) {a b : Nat} (v : Word) (h : b ≠ a) :
    Memory.read (m.write a v) b = Memory.read m b := by
  simp [Memory.read_write, h]

theorem Memory.mem_insert {a : Nat} {v : Word} {m : Memory} {c : Nat × Word} (h : c ∈ Memory.insert a v m) :
    c = (a, v) ∨ c ∈ m := by
  induction m with
  | nil => simpa [Memory.insert] using h
  | cons d rest ih =>
    obtain ⟨k, w⟩ := d
    by_cases hlt : a < k
    · simpa [Memory.insert, hlt] using h
    · simp only [Memory.insert, hlt, if_false, List.mem_cons] at h ⊢
      rcases h with rfl | h
      · exact .inr (.inl rfl)
      · exact (ih h).imp_right .inr

theorem Memory.pairwise_insert {a : Nat} {v : Word} {m : Memory} (hm : m.Pairwise (fun c d => c.1 < d.1))
    (ha : ∀ c ∈ m, c.1 ≠ a) : (Memory.insert a v m).Pairwise (fun c d => c.1 < d.1) := by
  induction m with
  | nil => simp [Memory.insert]
  | cons d rest ih =>
    obtain ⟨k, w⟩ := d
    rw [List.pairwise_cons] at hm
    by_cases hlt : a < k
    · simp only [Memory.insert, hlt, if_true, List.pairwise_cons, List.mem_cons]
      refine ⟨?_, hm.1, hm.2⟩
      rintro c (rfl | hc)
      · exact hlt
      · exact lt_trans hlt (hm.1 c hc)
    · simp only [Memory.insert, hlt, if_false, List.pairwise_cons]
      refine ⟨fun c hc => ?_, ih hm.2 (fun c hc => ha c (List.mem_cons_of_mem _ hc))⟩
      rcases Memory.mem_insert hc with rfl | hc
      · exact lt_of_le_of_ne (not_lt.mp hlt) (ha (k, w) (by simp))
      · exact hm.1 c hc

theorem Memory.wf_nil : Memory.wf [] := ⟨List.Pairwise.nil, fun _ h => absurd h List.not_mem_nil⟩

/-- A write to a memory location keeps the canonical form. -/
theorem Memory.wf_write {m : Memory} (hm : m.wf) {a : Word} (ha : isDevice a = false) (v : Word) :
    (m.write a.toNat v).wf := by
  obtain ⟨hp, hc⟩ := hm
  have hp' : (m.filter (fun c => c.1 != a.toNat)).Pairwise (fun c d => c.1 < d.1) := hp.filter _
  have hc' : ∀ c ∈ m.filter (fun c => c.1 != a.toNat),
      c.1 < 65536 ∧ isDevice (BitVec.ofNat 16 c.1) = false ∧ c.2 ≠ Memory.unlisted :=
    fun c h => hc c (List.mem_filter.mp h).1
  unfold Memory.write
  split
  · exact ⟨hp', hc'⟩
  · next hv =>
    refine ⟨Memory.pairwise_insert hp' (by simp), fun c h => ?_⟩
    rcases Memory.mem_insert h with rfl | h
    · exact ⟨a.isLt, by simpa using ha, hv⟩
    · exact hc' c h

end Sys2Proof.Machine
end

