-- ==== Sys2Proof/Laws/State.lean ====
section
/-! SUPPORT. One lemma per field per named update of the state, and the reads of registers after each update. -/

namespace Sys2Proof.Machine

variable (s : State)

/-! ### setFlags -/

@[simp] theorem State.setFlags_regs (a b c : Bool) : (s.setFlags a b c).regs = s.regs := rfl
@[simp] theorem State.setFlags_pc (a b c : Bool) : (s.setFlags a b c).pc = s.pc := rfl
@[simp] theorem State.setFlags_n (a b c : Bool) : (s.setFlags a b c).n = a := rfl
@[simp] theorem State.setFlags_z (a b c : Bool) : (s.setFlags a b c).z = b := rfl
@[simp] theorem State.setFlags_p (a b c : Bool) : (s.setFlags a b c).p = c := rfl
@[simp] theorem State.setFlags_mem (a b c : Bool) : (s.setFlags a b c).mem = s.mem := rfl
@[simp] theorem State.setFlags_crtReady (a b c : Bool) : (s.setFlags a b c).crtReady = s.crtReady := rfl
@[simp] theorem State.setFlags_crtData (a b c : Bool) : (s.setFlags a b c).crtData = s.crtData := rfl
@[simp] theorem State.setFlags_kbdReady (a b c : Bool) : (s.setFlags a b c).kbdReady = s.kbdReady := rfl
@[simp] theorem State.setFlags_kbdData (a b c : Bool) : (s.setFlags a b c).kbdData = s.kbdData := rfl
@[simp] theorem State.setFlags_clockEnable (a b c : Bool) : (s.setFlags a b c).clockEnable = s.clockEnable := rfl
@[simp] theorem State.setFlags_kbdInput (a b c : Bool) : (s.setFlags a b c).kbdInput = s.kbdInput := rfl
@[simp] theorem State.setFlags_output (a b c : Bool) : (s.setFlags a b c).output = s.output := rfl
@[simp] theorem State.setFlags_pending (a b c : Bool) : (s.setFlags a b c).pending = s.pending := rfl
@[simp] theorem State.setFlags_draws (a b c : Bool) : (s.setFlags a b c).draws = s.draws := rfl
@[simp] theorem State.setFlags_params (a b c : Bool) : (s.setFlags a b c).params = s.params := rfl

/-! ### setcc -/

@[simp] theorem State.setcc_regs (v : Word) : (s.setcc v).regs = s.regs := rfl
@[simp] theorem State.setcc_pc (v : Word) : (s.setcc v).pc = s.pc := rfl
@[simp] theorem State.setcc_n (v : Word) : (s.setcc v).n = v.msb := rfl
@[simp] theorem State.setcc_z (v : Word) : (s.setcc v).z = (v == 0) := rfl
@[simp] theorem State.setcc_p (v : Word) : (s.setcc v).p = (!v.msb && v != 0) := rfl
@[simp] theorem State.setcc_mem (v : Word) : (s.setcc v).mem = s.mem := rfl
@[simp] theorem State.setcc_crtReady (v : Word) : (s.setcc v).crtReady = s.crtReady := rfl
@[simp] theorem State.setcc_crtData (v : Word) : (s.setcc v).crtData = s.crtData := rfl
@[simp] theorem State.setcc_kbdReady (v : Word) : (s.setcc v).kbdReady = s.kbdReady := rfl
@[simp] theorem State.setcc_kbdData (v : Word) : (s.setcc v).kbdData = s.kbdData := rfl
@[simp] theorem State.setcc_clockEnable (v : Word) : (s.setcc v).clockEnable = s.clockEnable := rfl
@[simp] theorem State.setcc_kbdInput (v : Word) : (s.setcc v).kbdInput = s.kbdInput := rfl
@[simp] theorem State.setcc_output (v : Word) : (s.setcc v).output = s.output := rfl
@[simp] theorem State.setcc_pending (v : Word) : (s.setcc v).pending = s.pending := rfl
@[simp] theorem State.setcc_draws (v : Word) : (s.setcc v).draws = s.draws := rfl
@[simp] theorem State.setcc_params (v : Word) : (s.setcc v).params = s.params := rfl

/-! ### popFlags -/

@[simp] theorem State.popFlags_regs (w : Word) : (s.popFlags w).regs = s.regs := rfl
@[simp] theorem State.popFlags_pc (w : Word) : (s.popFlags w).pc = s.pc := rfl
@[simp] theorem State.popFlags_n (w : Word) : (s.popFlags w).n = (poppedCodes s.params.nzpLayout w).n := rfl
@[simp] theorem State.popFlags_z (w : Word) : (s.popFlags w).z = (poppedCodes s.params.nzpLayout w).z := rfl
@[simp] theorem State.popFlags_p (w : Word) : (s.popFlags w).p = (poppedCodes s.params.nzpLayout w).p := rfl
@[simp] theorem State.popFlags_mem (w : Word) : (s.popFlags w).mem = s.mem := rfl
@[simp] theorem State.popFlags_crtReady (w : Word) : (s.popFlags w).crtReady = s.crtReady := rfl
@[simp] theorem State.popFlags_crtData (w : Word) : (s.popFlags w).crtData = s.crtData := rfl
@[simp] theorem State.popFlags_kbdReady (w : Word) : (s.popFlags w).kbdReady = s.kbdReady := rfl
@[simp] theorem State.popFlags_kbdData (w : Word) : (s.popFlags w).kbdData = s.kbdData := rfl
@[simp] theorem State.popFlags_clockEnable (w : Word) : (s.popFlags w).clockEnable = s.clockEnable := rfl
@[simp] theorem State.popFlags_kbdInput (w : Word) : (s.popFlags w).kbdInput = s.kbdInput := rfl
@[simp] theorem State.popFlags_output (w : Word) : (s.popFlags w).output = s.output := rfl
@[simp] theorem State.popFlags_pending (w : Word) : (s.popFlags w).pending = s.pending := rfl
@[simp] theorem State.popFlags_draws (w : Word) : (s.popFlags w).draws = s.draws := rfl
@[simp] theorem State.popFlags_params (w : Word) : (s.popFlags w).params = s.params := rfl

/-! ### drawn -/

@[simp] theorem State.drawn_regs (k : Nat) : (s.drawn k).regs = s.regs := rfl
@[simp] theorem State.drawn_pc (k : Nat) : (s.drawn k).pc = s.pc := rfl
@[simp] theorem State.drawn_n (k : Nat) : (s.drawn k).n = s.n := rfl
@[simp] theorem State.drawn_z (k : Nat) : (s.drawn k).z = s.z := rfl
@[simp] theorem State.drawn_p (k : Nat) : (s.drawn k).p = s.p := rfl
@[simp] theorem State.drawn_mem (k : Nat) : (s.drawn k).mem = s.mem := rfl
@[simp] theorem State.drawn_crtReady (k : Nat) : (s.drawn k).crtReady = s.crtReady := rfl
@[simp] theorem State.drawn_crtData (k : Nat) : (s.drawn k).crtData = s.crtData := rfl
@[simp] theorem State.drawn_kbdReady (k : Nat) : (s.drawn k).kbdReady = s.kbdReady := rfl
@[simp] theorem State.drawn_kbdData (k : Nat) : (s.drawn k).kbdData = s.kbdData := rfl
@[simp] theorem State.drawn_clockEnable (k : Nat) : (s.drawn k).clockEnable = s.clockEnable := rfl
@[simp] theorem State.drawn_kbdInput (k : Nat) : (s.drawn k).kbdInput = s.kbdInput := rfl
@[simp] theorem State.drawn_output (k : Nat) : (s.drawn k).output = s.output := rfl
@[simp] theorem State.drawn_pending (k : Nat) : (s.drawn k).pending = s.pending := rfl
@[simp] theorem State.drawn_draws (k : Nat) : (s.drawn k).draws = s.draws + k := rfl
@[simp] theorem State.drawn_params (k : Nat) : (s.drawn k).params = s.params := rfl

/-! ### writeReg -/

@[simp] theorem State.writeReg_regs (r : Reg) (v : Word) : (s.writeReg r v).regs = s.regs.set r.toNat v r.isLt := rfl
@[simp] theorem State.writeReg_pc (r : Reg) (v : Word) : (s.writeReg r v).pc = s.pc := rfl
@[simp] theorem State.writeReg_n (r : Reg) (v : Word) : (s.writeReg r v).n = s.n := rfl
@[simp] theorem State.writeReg_z (r : Reg) (v : Word) : (s.writeReg r v).z = s.z := rfl
@[simp] theorem State.writeReg_p (r : Reg) (v : Word) : (s.writeReg r v).p = s.p := rfl
@[simp] theorem State.writeReg_mem (r : Reg) (v : Word) : (s.writeReg r v).mem = s.mem := rfl
@[simp] theorem State.writeReg_crtReady (r : Reg) (v : Word) : (s.writeReg r v).crtReady = s.crtReady := rfl
@[simp] theorem State.writeReg_crtData (r : Reg) (v : Word) : (s.writeReg r v).crtData = s.crtData := rfl
@[simp] theorem State.writeReg_kbdReady (r : Reg) (v : Word) : (s.writeReg r v).kbdReady = s.kbdReady := rfl
@[simp] theorem State.writeReg_kbdData (r : Reg) (v : Word) : (s.writeReg r v).kbdData = s.kbdData := rfl
@[simp] theorem State.writeReg_clockEnable (r : Reg) (v : Word) : (s.writeReg r v).clockEnable = s.clockEnable := rfl
@[simp] theorem State.writeReg_kbdInput (r : Reg) (v : Word) : (s.writeReg r v).kbdInput = s.kbdInput := rfl
@[simp] theorem State.writeReg_output (r : Reg) (v : Word) : (s.writeReg r v).output = s.output := rfl
@[simp] theorem State.writeReg_pending (r : Reg) (v : Word) : (s.writeReg r v).pending = s.pending := rfl
@[simp] theorem State.writeReg_draws (r : Reg) (v : Word) : (s.writeReg r v).draws = s.draws := rfl
@[simp] theorem State.writeReg_params (r : Reg) (v : Word) : (s.writeReg r v).params = s.params := rfl

/-! ### setPc -/

@[simp] theorem State.setPc_regs (v : Word) : (s.setPc v).regs = s.regs := rfl
@[simp] theorem State.setPc_pc (v : Word) : (s.setPc v).pc = v := rfl
@[simp] theorem State.setPc_n (v : Word) : (s.setPc v).n = s.n := rfl
@[simp] theorem State.setPc_z (v : Word) : (s.setPc v).z = s.z := rfl
@[simp] theorem State.setPc_p (v : Word) : (s.setPc v).p = s.p := rfl
@[simp] theorem State.setPc_mem (v : Word) : (s.setPc v).mem = s.mem := rfl
@[simp] theorem State.setPc_crtReady (v : Word) : (s.setPc v).crtReady = s.crtReady := rfl
@[simp] theorem State.setPc_crtData (v : Word) : (s.setPc v).crtData = s.crtData := rfl
@[simp] theorem State.setPc_kbdReady (v : Word) : (s.setPc v).kbdReady = s.kbdReady := rfl
@[simp] theorem State.setPc_kbdData (v : Word) : (s.setPc v).kbdData = s.kbdData := rfl
@[simp] theorem State.setPc_clockEnable (v : Word) : (s.setPc v).clockEnable = s.clockEnable := rfl
@[simp] theorem State.setPc_kbdInput (v : Word) : (s.setPc v).kbdInput = s.kbdInput := rfl
@[simp] theorem State.setPc_output (v : Word) : (s.setPc v).output = s.output := rfl
@[simp] theorem State.setPc_pending (v : Word) : (s.setPc v).pending = s.pending := rfl
@[simp] theorem State.setPc_draws (v : Word) : (s.setPc v).draws = s.draws := rfl
@[simp] theorem State.setPc_params (v : Word) : (s.setPc v).params = s.params := rfl

/-! ### advancePc -/

@[simp] theorem State.advancePc_regs : (s.advancePc).regs = s.regs := rfl
@[simp] theorem State.advancePc_pc : (s.advancePc).pc = s.pc + 1 := rfl
@[simp] theorem State.advancePc_n : (s.advancePc).n = s.n := rfl
@[simp] theorem State.advancePc_z : (s.advancePc).z = s.z := rfl
@[simp] theorem State.advancePc_p : (s.advancePc).p = s.p := rfl
@[simp] theorem State.advancePc_mem : (s.advancePc).mem = s.mem := rfl
@[simp] theorem State.advancePc_crtReady : (s.advancePc).crtReady = s.crtReady := rfl
@[simp] theorem State.advancePc_crtData : (s.advancePc).crtData = s.crtData := rfl
@[simp] theorem State.advancePc_kbdReady : (s.advancePc).kbdReady = s.kbdReady := rfl
@[simp] theorem State.advancePc_kbdData : (s.advancePc).kbdData = s.kbdData := rfl
@[simp] theorem State.advancePc_clockEnable : (s.advancePc).clockEnable = s.clockEnable := rfl
@[simp] theorem State.advancePc_kbdInput : (s.advancePc).kbdInput = s.kbdInput := rfl
@[simp] theorem State.advancePc_output : (s.advancePc).output = s.output := rfl
@[simp] theorem State.advancePc_pending : (s.advancePc).pending = s.pending := rfl
@[simp] theorem State.advancePc_draws : (s.advancePc).draws = s.draws := rfl
@[simp] theorem State.advancePc_params : (s.advancePc).params = s.params := rfl

/-! ### link -/

@[simp] theorem State.link_regs : (s.link).regs = s.regs.set regLink.toNat s.pc regLink.isLt := rfl
@[simp] theorem State.link_pc : (s.link).pc = s.pc := rfl
@[simp] theorem State.link_n : (s.link).n = s.n := rfl
@[simp] theorem State.link_z : (s.link).z = s.z := rfl
@[simp] theorem State.link_p : (s.link).p = s.p := rfl
@[simp] theorem State.link_mem : (s.link).mem = s.mem := rfl
@[simp] theorem State.link_crtReady : (s.link).crtReady = s.crtReady := rfl
@[simp] theorem State.link_crtData : (s.link).crtData = s.crtData := rfl
@[simp] theorem State.link_kbdReady : (s.link).kbdReady = s.kbdReady := rfl
@[simp] theorem State.link_kbdData : (s.link).kbdData = s.kbdData := rfl
@[simp] theorem State.link_clockEnable : (s.link).clockEnable = s.clockEnable := rfl
@[simp] theorem State.link_kbdInput : (s.link).kbdInput = s.kbdInput := rfl
@[simp] theorem State.link_output : (s.link).output = s.output := rfl
@[simp] theorem State.link_pending : (s.link).pending = s.pending := rfl
@[simp] theorem State.link_draws : (s.link).draws = s.draws := rfl
@[simp] theorem State.link_params : (s.link).params = s.params := rfl

/-! ### writeResult -/

@[simp] theorem State.writeResult_regs (r : Reg) (v : Word) : (s.writeResult r v).regs = s.regs.set r.toNat v r.isLt := rfl
@[simp] theorem State.writeResult_pc (r : Reg) (v : Word) : (s.writeResult r v).pc = s.pc := rfl
@[simp] theorem State.writeResult_n (r : Reg) (v : Word) : (s.writeResult r v).n = v.msb := rfl
@[simp] theorem State.writeResult_z (r : Reg) (v : Word) : (s.writeResult r v).z = (v == 0) := rfl
@[simp] theorem State.writeResult_p (r : Reg) (v : Word) : (s.writeResult r v).p = (!v.msb && v != 0) := rfl
@[simp] theorem State.writeResult_mem (r : Reg) (v : Word) : (s.writeResult r v).mem = s.mem := rfl
@[simp] theorem State.writeResult_crtReady (r : Reg) (v : Word) : (s.writeResult r v).crtReady = s.crtReady := rfl
@[simp] theorem State.writeResult_crtData (r : Reg) (v : Word) : (s.writeResult r v).crtData = s.crtData := rfl
@[simp] theorem State.writeResult_kbdReady (r : Reg) (v : Word) : (s.writeResult r v).kbdReady = s.kbdReady := rfl
@[simp] theorem State.writeResult_kbdData (r : Reg) (v : Word) : (s.writeResult r v).kbdData = s.kbdData := rfl
@[simp] theorem State.writeResult_clockEnable (r : Reg) (v : Word) : (s.writeResult r v).clockEnable = s.clockEnable := rfl
@[simp] theorem State.writeResult_kbdInput (r : Reg) (v : Word) : (s.writeResult r v).kbdInput = s.kbdInput := rfl
@[simp] theorem State.writeResult_output (r : Reg) (v : Word) : (s.writeResult r v).output = s.output := rfl
@[simp] theorem State.writeResult_pending (r : Reg) (v : Word) : (s.writeResult r v).pending = s.pending := rfl
@[simp] theorem State.writeResult_draws (r : Reg) (v : Word) : (s.writeResult r v).draws = s.draws := rfl
@[simp] theorem State.writeResult_params (r : Reg) (v : Word) : (s.writeResult r v).params = s.params := rfl

/-! ### writeMem -/

@[simp] theorem State.writeMem_regs (a v : Word) : (s.writeMem a v).regs = s.regs := rfl
@[simp] theorem State.writeMem_pc (a v : Word) : (s.writeMem a v).pc = s.pc := rfl
@[simp] theorem State.writeMem_n (a v : Word) : (s.writeMem a v).n = s.n := rfl
@[simp] theorem State.writeMem_z (a v : Word) : (s.writeMem a v).z = s.z := rfl
@[simp] theorem State.writeMem_p (a v : Word) : (s.writeMem a v).p = s.p := rfl
@[simp] theorem State.writeMem_mem (a v : Word) : (s.writeMem a v).mem = s.mem.write a.toNat v := rfl
@[simp] theorem State.writeMem_crtReady (a v : Word) : (s.writeMem a v).crtReady = s.crtReady := rfl
@[simp] theorem State.writeMem_crtData (a v : Word) : (s.writeMem a v).crtData = s.crtData := rfl
@[simp] theorem State.writeMem_kbdReady (a v : Word) : (s.writeMem a v).kbdReady = s.kbdReady := rfl
@[simp] theorem State.writeMem_kbdData (a v : Word) : (s.writeMem a v).kbdData = s.kbdData := rfl
@[simp] theorem State.writeMem_clockEnable (a v : Word) : (s.writeMem a v).clockEnable = s.clockEnable := rfl
@[simp] theorem State.writeMem_kbdInput (a v : Word) : (s.writeMem a v).kbdInput = s.kbdInput := rfl
@[simp] theorem State.writeMem_output (a v : Word) : (s.writeMem a v).output = s.output := rfl
@[simp] theorem State.writeMem_pending (a v : Word) : (s.writeMem a v).pending = s.pending := rfl
@[simp] theorem State.writeMem_draws (a v : Word) : (s.writeMem a v).draws = s.draws := rfl
@[simp] theorem State.writeMem_params (a v : Word) : (s.writeMem a v).params = s.params := rfl

/-! ### writeMcr -/

@[simp] theorem writeMcr_regs (v : Word) : (writeMcr v s).regs = s.regs := rfl
@[simp] theorem writeMcr_pc (v : Word) : (writeMcr v s).pc = s.pc := rfl
@[simp] theorem writeMcr_n (v : Word) : (writeMcr v s).n = s.n := rfl
@[simp] theorem writeMcr_z (v : Word) : (writeMcr v s).z = s.z := rfl
@[simp] theorem writeMcr_p (v : Word) : (writeMcr v s).p = s.p := rfl
@[simp] theorem writeMcr_mem (v : Word) : (writeMcr v s).mem = s.mem := rfl
@[simp] theorem writeMcr_crtReady (v : Word) : (writeMcr v s).crtReady = s.crtReady := rfl
@[simp] theorem writeMcr_crtData (v : Word) : (writeMcr v s).crtData = s.crtData := rfl
@[simp] theorem writeMcr_kbdReady (v : Word) : (writeMcr v s).kbdReady = s.kbdReady := rfl
@[simp] theorem writeMcr_kbdData (v : Word) : (writeMcr v s).kbdData = s.kbdData := rfl
@[simp] theorem writeMcr_clockEnable (v : Word) : (writeMcr v s).clockEnable = v.msb := rfl
@[simp] theorem writeMcr_kbdInput (v : Word) : (writeMcr v s).kbdInput = s.kbdInput := rfl
@[simp] theorem writeMcr_output (v : Word) : (writeMcr v s).output = s.output := rfl
@[simp] theorem writeMcr_pending (v : Word) : (writeMcr v s).pending = s.pending := rfl
@[simp] theorem writeMcr_draws (v : Word) : (writeMcr v s).draws = s.draws := rfl
@[simp] theorem writeMcr_params (v : Word) : (writeMcr v s).params = s.params := rfl

/-! ### Registers read after an update -/

@[simp] theorem State.readReg_setFlags (a b c : Bool) (q : Reg) : (s.setFlags a b c).readReg q = s.readReg q := rfl
@[simp] theorem State.readReg_setcc (v : Word) (q : Reg) : (s.setcc v).readReg q = s.readReg q := rfl
@[simp] theorem State.readReg_popFlags (w : Word) (q : Reg) : (s.popFlags w).readReg q = s.readReg q := rfl
@[simp] theorem State.readReg_drawn (k : Nat) (q : Reg) : (s.drawn k).readReg q = s.readReg q := rfl
@[simp] theorem State.readReg_setPc (v : Word) (q : Reg) : (s.setPc v).readReg q = s.readReg q := rfl
@[simp] theorem State.readReg_advancePc (q : Reg) : (s.advancePc).readReg q = s.readReg q := rfl
@[simp] theorem State.readReg_writeMem (a v : Word) (q : Reg) : (s.writeMem a v).readReg q = s.readReg q := rfl
@[simp] theorem readReg_writeMcr (v : Word) (q : Reg) : (writeMcr v s).readReg q = s.readReg q := rfl

/-- A register read after a write: the value written, or what it held (10_state.md R21). -/
theorem State.readReg_writeReg (r q : Reg) (v : Word) :
    (s.writeReg r v).readReg q = if q = r then v else s.readReg q := by
  by_cases h : q = r
  · subst h
    simp [State.readReg, State.writeReg]
  · have hne : r.toNat ≠ q.toNat := fun e => h (BitVec.eq_of_toNat_eq e.symm)
    simp [State.readReg, State.writeReg, h, hne]

@[simp] theorem State.readReg_writeReg_same (r : Reg) (v : Word) : (s.writeReg r v).readReg r = v := by
  simp [State.readReg_writeReg]

@[simp] theorem State.readReg_writeReg_ne (r q : Reg) (v : Word) (h : q ≠ r) :
    (s.writeReg r v).readReg q = s.readReg q := by
  simp [State.readReg_writeReg, h]

theorem State.readReg_writeResult (r q : Reg) (v : Word) :
    (s.writeResult r v).readReg q = if q = r then v else s.readReg q :=
  State.readReg_writeReg s r q v

theorem State.readReg_link (q : Reg) : s.link.readReg q = if q = regLink then s.pc else s.readReg q :=
  State.readReg_writeReg s regLink q s.pc

/-- Registers are read through `regs` alone. -/
theorem State.readReg_congr {s t : State} (h : t.regs = s.regs) (q : Reg) : t.readReg q = s.readReg q := by
  simp [State.readReg, h]

end Sys2Proof.Machine
end

