-- ==== Sys2Proof/Laws/Ops.lean ====
section
/-! SUPPORT. What each shared operation can do, said once. -/

namespace Sys2Proof.Machine

variable {s t : State}

/-! ### andThen -/

@[simp] theorem andThen_nextOf {α β : Type} (a : α) (f : α → Access β) : andThen (.next a) f = f a := rfl

@[simp] theorem andThen_refusedOf {α β : Type} (r : Refusal) (f : α → Access β) :
    andThen (.refused r) f = .refused r := rfl

@[simp] theorem andThen_faultOf {α β : Type} (r : Fault) (f : α → Access β) :
    andThen (.fault r) f = .fault r := rfl

theorem andThen_eq_next {α β : Type} {x : Access α} {f : α → Access β} {b : β} :
    andThen x f = .next b ↔ ∃ a, x = .next a ∧ f a = .next b := by
  cases x <;> simp

theorem andThen_eq_fault {α β : Type} {x : Access α} {f : α → Access β} {r : Fault} :
    andThen x f = .fault r ↔ x = .fault r ∨ ∃ a, x = .next a ∧ f a = .fault r := by
  cases x <;> simp

/-! ### NZP_LAYOUT -/

@[simp] theorem poppedCodes_bits (a b c : Fin 16) (w : Word) :
    poppedCodes (.bits a b c) w = ⟨w.getLsbD a, w.getLsbD b, w.getLsbD c⟩ := rfl

@[simp] theorem poppedCodes_table (f : List (Word × Codes)) (g : List (Codes × Word)) (w : Word) :
    poppedCodes (.table f g) w = (f.lookup w).getD ⟨false, false, false⟩ := rfl

@[simp] theorem pushedWord_table (f : List (Word × Codes)) (g : List (Codes × Word)) (c : Codes) :
    pushedWord (.table f g) c = (g.lookup c).getD 0x0000 := rfl

theorem getLsbD_flagAt (b : Bool) (i j : Fin 16) : (flagAt b i).getLsbD j = (b && decide (i = j)) := by
  revert b i j
  decide

/-- A bit of the word pushed by a layout of one bit for each code: the codes at that position, or 0. -/
theorem getLsbD_pushedWord_bits (a b c i : Fin 16) (k : Codes) : (pushedWord (.bits a b c) k).getLsbD i =
    (k.n && decide (a = i) || k.z && decide (b = i) || k.p && decide (c = i)) := by
  simp only [pushedWord, BitVec.getLsbD_or, getLsbD_flagAt]

/-! ### Addresses -/

theorem isDevice_eq_false {a : Word} :
    isDevice a = false ↔ a ≠ crtsrAddr ∧ a ≠ crtdrAddr ∧ a ≠ kbsrAddr ∧ a ≠ kbdrAddr ∧ a ≠ mcrAddr := by
  simp [isDevice, and_assoc]

theorem isMemory_iff {a : Word} : isMemory s a = true ↔ isDevice a = false ∧ a ∉ s.params.ioExtra := by
  simp [isMemory]

/-! ### Device words -/

theorem statusWord_msb (b : Bool) (w : Word) : (statusWord b w).msb = b := by
  cases b <;> simp [statusWord, BitVec.msb_eq_getLsbD_last]

theorem lowByte_charWord (c : Byte) (w : Word) : lowByte (charWord c w) = c := by
  apply BitVec.eq_of_getLsbD_eq
  intro i hi
  interval_cases i <;> simp [lowByte, charWord, zext8]

/-! ### MemRead -/

theorem memRead_memory {a : Word} (h : isMemory s a = true) : memRead a s = .next (s.mem.read a.toNat, s) := by
  obtain ⟨hd, hx⟩ := isMemory_iff.mp h
  obtain ⟨h1, h2, h3, h4, h5⟩ := isDevice_eq_false.mp hd
  simp [memRead, h1, h2, h3, h4, h5, hx]

/-- A read has a meaning wherever the address is not in IO_EXTRA (20_memory.md R53). -/
theorem memRead_of_canRead {a : Word} (h : canRead s a) : ∃ r, memRead a s = .next r := by
  unfold memRead
  repeat' split
  all_goals first
    | exact ⟨_, rfl⟩
    | skip
  rename_i h1 h2 h3 h4 h5 hx
  rcases h with h | h
  · simp [isDevice, h1, h2, h3, h4, h5] at h
  · exact absurd hx h

/-- Everything a read can do: it returns what `ReadsAs` allows, draws free values, and clears KBSR[15] if it is a read
of KBDR (20_memory.md R53, R65). -/
theorem memRead_next {a : Word} {r : Word × State} (h : memRead a s = .next r) :
    canRead s a ∧ ReadsAs s a r.1 ∧
      ∃ k, r.2 = { s.drawn k with kbdReady := if a = kbdrAddr then false else s.kbdReady } := by
  unfold memRead at h
  split at h
  · next h1 =>
    subst h1
    obtain rfl := Host.Outcome.next.inj h
    exact ⟨.inl (by decide), by simp [ReadsAs, readCrtsr, statusWord_msb], 1,
      by simp [readCrtsr, State.drawn, show crtsrAddr ≠ kbdrAddr by decide]⟩
  split at h
  · next h1 h2 =>
    subst h2
    obtain rfl := Host.Outcome.next.inj h
    exact ⟨.inl (by decide), by simp [ReadsAs, h1], 1,
      by simp [readCrtdr, State.drawn, show crtdrAddr ≠ kbdrAddr by decide]⟩
  split at h
  · next h1 h2 h3 =>
    subst h3
    obtain rfl := Host.Outcome.next.inj h
    exact ⟨.inl (by decide), by simp [ReadsAs, readKbsr, h1, h2, statusWord_msb], 1,
      by simp [readKbsr, State.drawn, show kbsrAddr ≠ kbdrAddr by decide]⟩
  split at h
  · next h1 h2 h3 h4 =>
    subst h4
    obtain rfl := Host.Outcome.next.inj h
    exact ⟨.inl (by decide),
      by simp only [ReadsAs, readKbdr, h1, h2, h3, if_false, if_true]; intro hr; simp [hr, lowByte_charWord], 1,
      by simp [readKbdr, State.drawn]⟩
  split at h
  · next h1 h2 h3 h4 h5 =>
    subst h5
    obtain rfl := Host.Outcome.next.inj h
    exact ⟨.inl (by decide), by simp [ReadsAs, readMcr, h1, h2, h3, h4, statusWord_msb], 1,
      by simp [readMcr, State.drawn, show mcrAddr ≠ kbdrAddr by decide]⟩
  split at h
  · cases h
  · next h1 h2 h3 h4 h5 hx =>
    obtain rfl := Host.Outcome.next.inj h
    exact ⟨.inr hx, by simp [ReadsAs, h1, h2, h3, h4, h5], 0, by simp [State.drawn, h4]⟩

/-- A read without a meaning is refused: its address is in IO_EXTRA (20_memory.md R53). -/
theorem memRead_of_not_canRead {a : Word} (h : ¬canRead s a) : memRead a s = .refused (.ioExtraAccess a) := by
  simp only [canRead, not_or, not_not, Bool.not_eq_true] at h
  obtain ⟨h1, h2, h3, h4, h5⟩ := isDevice_eq_false.mp h.1
  simp [memRead, h1, h2, h3, h4, h5, h.2]

/-- A read leaves the parameters, so an address can be read after it exactly when it could before. -/
theorem memRead_params {a : Word} {r : Word × State} (h : memRead a s = .next r) : r.2.params = s.params := by
  obtain ⟨-, -, k, hk⟩ := memRead_next h
  rw [hk]
  rfl

/-! ### MemWrite -/

theorem displayText_cons_ne_nil (cs : List Byte) (h : cs ≠ []) :
    displayText cs s = { s with output := s.output ++ cs, crtData := cs.getLast h, crtReady := false } := by
  simp [displayText, List.getLast?_eq_getLast_of_ne_nil h]

@[simp] theorem displayText_nil : displayText [] s = s := rfl

/-- A store has a meaning to a memory location, to MCR, and to CRTDR while the display is ready (20_memory.md R54). -/
theorem memWrite_of_canWrite {a : Word} (v : Word) (h : canWrite s a) : ∃ t, memWrite a v s = .next t := by
  rcases h with ⟨rfl, hr⟩ | rfl | ⟨hd, hx⟩
  · exact ⟨_, by simp [memWrite, hr]; rfl⟩
  · exact ⟨_, by simp [memWrite, show mcrAddr ≠ crtdrAddr by decide]; rfl⟩
  · obtain ⟨h1, h2, h3, h4, h5⟩ := isDevice_eq_false.mp hd
    exact ⟨_, by simp [memWrite, h1, h2, h3, h4, h5, hx]; rfl⟩

/-- Everything a store can do: one of three updates of the state (20_memory.md R54). -/
theorem memWrite_next {a v : Word} (h : memWrite a v s = .next t) :
    (a = crtdrAddr ∧ s.crtReady = true ∧ t = displayText [lowByte v] s) ∨
      (a = mcrAddr ∧ t = writeMcr v s) ∨
      (isDevice a = false ∧ a ∉ s.params.ioExtra ∧ t = s.writeMem a v) := by
  unfold memWrite at h
  split at h
  · next h1 =>
    split at h
    · next hr => exact .inl ⟨h1, hr, (Host.Outcome.next.inj h).symm⟩
    · cases h
  split at h
  · next h2 => exact .inr (.inl ⟨h2, (Host.Outcome.next.inj h).symm⟩)
  split at h
  · cases h
  split at h
  · cases h
  · next h1 h2 h3 hx =>
    simp only [not_or] at h3
    exact .inr (.inr ⟨isDevice_eq_false.mpr ⟨h3.1, h1, h3.2.1, h3.2.2, h2⟩, hx, (Host.Outcome.next.inj h).symm⟩)

/-- No read and no store faults; they can only be refused. -/
theorem memRead_ne_fault (a : Word) (r : Fault) : memRead a s ≠ .fault r := by
  unfold memRead
  repeat' split
  all_goals simp

theorem memWrite_ne_fault (a v : Word) (r : Fault) : memWrite a v s ≠ .fault r := by
  unfold memWrite
  repeat' split
  all_goals simp

/-- A store without a meaning is refused, for the reason `WriteRefusal` gives (20_memory.md R54, 60_exceptions.md R183). -/
theorem memWrite_of_not_canWrite {a : Word} (v : Word) (h : ¬canWrite s a) :
    ∃ r, memWrite a v s = .refused r ∧ WriteRefusal s a r := by
  cases hm : memWrite a v s with
  | next t =>
    refine absurd ?_ h
    rcases memWrite_next hm with ⟨ha, hr, -⟩ | ⟨ha, -⟩ | ⟨hd, hx, -⟩
    · exact .inl ⟨ha, hr⟩
    · exact .inr (.inl ha)
    · exact .inr (.inr ⟨hd, hx⟩)
  | fault r => exact absurd hm (memWrite_ne_fault a v r)
  | refused r =>
    refine ⟨r, rfl, ?_⟩
    unfold memWrite at hm
    by_cases h1 : a = crtdrAddr
    · by_cases hr : s.crtReady = true
      · simp [h1, hr] at hm
      · exact .inl ⟨h1, by simpa using hr, by simpa [h1, hr, eq_comm] using hm⟩
    by_cases h2 : a = mcrAddr
    · simp [h2, show mcrAddr ≠ crtdrAddr by decide] at hm
    by_cases h3 : a = crtsrAddr ∨ a = kbsrAddr ∨ a = kbdrAddr
    · exact .inr (.inl ⟨h3, by simpa only [h1, h2, h3, if_true, if_false, Host.Outcome.refused.injEq, eq_comm] using hm⟩)
    by_cases h4 : a ∈ s.params.ioExtra
    · simp only [not_or] at h3
      exact .inr (.inr ⟨isDevice_eq_false.mpr ⟨h3.1, h1, h3.2.1, h3.2.2, h2⟩, h4,
        by simpa [h1, h2, h3, h4, eq_comm] using hm⟩)
    · simp [h1, h2, h3, h4] at hm

/-- A store and a register write can be made in either order. -/
theorem memWrite_writeReg (a v : Word) (r : Reg) (x : Word) :
    memWrite a v (s.writeReg r x) = andThen (memWrite a v s) fun u => .next (u.writeReg r x) := by
  unfold memWrite
  simp only [State.writeReg_crtReady, State.writeReg_params]
  by_cases h : s.crtReady = true <;> by_cases h' : a ∈ s.params.ioExtra <;> simp only [h, h', if_true, if_false]
  all_goals
    repeat' split
    all_goals rfl

/-! ### The fetch -/

theorem fetchWord_eq_next {a w : Word} :
    fetchWord a s = .next w ↔ isMemory s a = true ∧ s.mem.read a.toNat = w := by
  unfold fetchWord
  rw [isMemory_iff]
  split
  · next h => simp [h]
  split
  · next h hx => simp [hx]
  · next h hx => simp [h, hx]

/-! ### The keyboard's input -/

theorem nextTyped_eq_none {i : KbdInput} : nextTyped i = none ↔ i.typed = [] ∧ i.endless = none := by
  obtain ⟨_ | ⟨c, cs⟩, _ | e⟩ := i <;> simp [nextTyped]

@[simp] theorem nextTyped_cons (c : Byte) (cs : List Byte) (e : Option Nat) :
    nextTyped ⟨c :: cs, e⟩ = some (c, ⟨cs, e⟩) := by cases e <;> rfl

@[simp] theorem nextTyped_endless (k : Nat) : nextTyped ⟨[], some k⟩ = some (Config.freeKey k, ⟨[], some (k + 1)⟩) := rfl

@[simp] theorem nextTyped_nil : nextTyped ⟨[], none⟩ = none := rfl

theorem afterKeys_of_none {i : KbdInput} (h : nextTyped i = none) (k : Nat) : afterKeys k i = i := by
  cases k <;> simp [afterKeys, h]

theorem afterKeys_add (j k : Nat) (i : KbdInput) : afterKeys (j + k) i = afterKeys k (afterKeys j i) := by
  induction j generalizing i with
  | zero => simp [afterKeys]
  | succ j ih =>
    rw [Nat.succ_add]
    cases h : nextTyped i with
    | none => simp [afterKeys_of_none h]
    | some r => simp [afterKeys, h, ih]

/-- The next character and the rest, in the terms of the statements. -/
theorem nextTyped_eq_some {i : KbdInput} {r : Byte × KbdInput} (h : nextTyped i = some r) :
    keyNumber i 0 = some r.1 ∧ afterKeys 1 i = r.2 := by
  refine ⟨?_, by simp [afterKeys, h]⟩
  obtain ⟨_ | ⟨c, cs⟩, _ | e⟩ := i
  · cases h
  all_goals
    obtain rfl := Option.some.inj h
    simp [keyNumber]
/-! ### The turns of the other agents -/

/-- The keyboard's step touches the keyboard only (60_exceptions.md R180, R181). -/
theorem keyboardTurn_eq : ∃ k r d i, keyboardTurn s =
    { s.drawn k with kbdReady := r, kbdData := d, kbdInput := i } := by
  unfold keyboardTurn
  split
  · exact ⟨0, s.kbdReady, s.kbdData, s.kbdInput, rfl⟩
  split
  · exact ⟨0, s.kbdReady, s.kbdData, s.kbdInput, rfl⟩
  split
  · exact ⟨1, _, _, _, rfl⟩
  · exact ⟨1, s.kbdReady, s.kbdData, s.kbdInput, rfl⟩

/-- The display's step touches its ready bit only (60_exceptions.md R183). -/
theorem displayTurn_eq : ∃ k r, displayTurn s = { s.drawn k with crtReady := r } := by
  unfold displayTurn
  split
  · exact ⟨0, s.crtReady, rfl⟩
  · exact ⟨1, _, rfl⟩

/-- The devices' turn touches the two ready bits and the keyboard's data only. -/
theorem deviceTurn_eq : ∃ k c r d i, deviceTurn s =
    { s.drawn k with crtReady := c, kbdReady := r, kbdData := d, kbdInput := i } := by
  obtain ⟨k, r, d, i, hk⟩ := keyboardTurn_eq (s := s)
  obtain ⟨k', c, hd⟩ := displayTurn_eq (s := keyboardTurn s)
  exact ⟨k + k', c, r, d, i, by rw [deviceTurn, hd, hk]; simp [State.drawn, Nat.add_assoc]⟩

theorem betweenAccesses_eq (a : Word) : ∃ k c r d i, betweenAccesses a s =
    { s.drawn k with crtReady := c, kbdReady := r, kbdData := d, kbdInput := i } := by
  unfold betweenAccesses
  split
  · exact deviceTurn_eq
  · exact ⟨0, s.crtReady, s.kbdReady, s.kbdData, s.kbdInput, rfl⟩

@[simp] theorem betweenAccesses_memory {a : Word} (h : isDevice a = false) : betweenAccesses a s = s := by
  simp [betweenAccesses, h]

theorem keyboardTurn_writeReg (r : Reg) (x : Word) : keyboardTurn (s.writeReg r x) = (keyboardTurn s).writeReg r x := by
  unfold keyboardTurn
  simp only [State.writeReg_kbdInput, State.writeReg_kbdReady, State.writeReg_draws]
  cases nextTyped s.kbdInput with
  | none => rfl
  | some q =>
    by_cases h : s.kbdReady = true <;> by_cases h' : Config.freeBit s.draws = true <;> simp only [h, h', if_true]
    all_goals rfl

theorem keyboardTurn_setFlags (a b c : Bool) : keyboardTurn (s.setFlags a b c) = (keyboardTurn s).setFlags a b c := by
  unfold keyboardTurn
  simp only [State.setFlags_kbdInput, State.setFlags_kbdReady, State.setFlags_draws]
  cases nextTyped s.kbdInput with
  | none => rfl
  | some q =>
    by_cases h : s.kbdReady = true <;> by_cases h' : Config.freeBit s.draws = true <;> simp only [h, h', if_true]
    all_goals rfl

/-- The devices' turn between two accesses and a register write can be made in either order. -/
theorem betweenAccesses_writeReg (d : Word) (r : Reg) (x : Word) :
    betweenAccesses d (s.writeReg r x) = (betweenAccesses d s).writeReg r x := by
  unfold betweenAccesses
  split
  · rw [deviceTurn, keyboardTurn_writeReg]
    unfold deviceTurn displayTurn
    by_cases h : (keyboardTurn s).crtReady = true <;> simp only [State.writeReg_crtReady, h, if_true]
    all_goals rfl
  · rfl

/-- The devices' turn between two accesses and a write of the codes can be made in either order. -/
theorem betweenAccesses_setFlags (d : Word) (a b c : Bool) :
    betweenAccesses d (s.setFlags a b c) = (betweenAccesses d s).setFlags a b c := by
  unfold betweenAccesses
  split
  · rw [deviceTurn, keyboardTurn_setFlags]
    unfold deviceTurn displayTurn
    by_cases h : (keyboardTurn s).crtReady = true <;> simp only [State.setFlags_crtReady, h, if_true]
    all_goals rfl
  · rfl

theorem betweenAccesses_params (d : Word) : (betweenAccesses d s).params = s.params := by
  obtain ⟨k, c, r, b, i, h⟩ := betweenAccesses_eq (s := s) d
  rw [h]
  rfl

/-- The request turn touches the pending requests only. -/
theorem requestTurn_eq (l : List InterruptSource) : ∃ k q, requestTurn l s =
    { s.drawn k with pending := s.pending ++ q } := by
  induction l generalizing s with
  | nil => exact ⟨0, [], by simp [requestTurn, State.drawn]⟩
  | cons i rest ih =>
    unfold requestTurn
    split
    · exact ih
    split
    · obtain ⟨k, q, h⟩ := ih (s := { s.drawn 1 with pending := s.pending ++ [i] })
      exact ⟨1 + k, i :: q, by rw [h]; simp [State.drawn, Nat.add_assoc]⟩
    · obtain ⟨k, q, h⟩ := ih (s := s.drawn 1)
      exact ⟨1 + k, q, by rw [h]; simp [State.drawn, Nat.add_assoc]⟩

/-- The agents' turn touches the ready bits, the keyboard and the pending requests only (20_memory.md R59). -/
theorem agentsTurn_eq : ∃ k c r d i q, agentsTurn s =
    { s.drawn k with crtReady := c, kbdReady := r, kbdData := d, kbdInput := i, pending := s.pending ++ q } := by
  obtain ⟨k, c, r, d, i, h⟩ := deviceTurn_eq (s := s)
  obtain ⟨k', q, h'⟩ := requestTurn_eq (s := deviceTurn s) s.params.interruptSources
  exact ⟨k + k', c, r, d, i, q, by rw [agentsTurn, h', h]; simp [State.drawn, Nat.add_assoc]⟩

theorem takeRequest_eq_none : takeRequest s = none ↔ s.pending = [] := by
  unfold takeRequest
  split
  · next h => simp [h]
  · next h => simp [h]

/-- A request taken is one of the pending ones, and is pending no more. -/
theorem takeRequest_some {r : InterruptSource × State} (h : takeRequest s = some r) :
    r.1 ∈ s.pending ∧ r.2 = { s.drawn 1 with pending := s.pending.erase r.1 } := by
  unfold takeRequest at h
  split at h
  · cases h
  · next first rest hp =>
    obtain rfl := Option.some.inj h
    refine ⟨?_, by rw [hp]⟩
    rw [hp]
    have hlt : Config.freeIndex s.draws % (first :: rest).length < (first :: rest).length :=
      Nat.mod_lt _ (by simp)
    simp only [List.getD_eq_getElem?_getD, List.getElem?_eq_getElem hlt, Option.getD_some]
    exact List.getElem_mem hlt

/-! ### The invariant through the shared operations -/

theorem Inv_memRead {a : Word} {r : Word × State} (hs : s.Inv) (h : memRead a s = .next r) : r.2.Inv := by
  obtain ⟨-, -, k, hk⟩ := memRead_next h
  rw [hk]
  exact hs

theorem Inv_memWrite {a v : Word} (hs : s.Inv) (h : memWrite a v s = .next t) : t.Inv := by
  rcases memWrite_next h with ⟨-, -, rfl⟩ | ⟨-, rfl⟩ | ⟨hd, -, rfl⟩
  · exact hs
  · exact hs
  · exact ⟨Memory.wf_write hs.1 hd v, hs.2⟩

theorem Inv_betweenAccesses (a : Word) (hs : s.Inv) : (betweenAccesses a s).Inv := by
  obtain ⟨k, c, r, d, i, h⟩ := betweenAccesses_eq (s := s) a
  rw [h]
  exact hs

theorem Inv_deviceTurn (hs : s.Inv) : (deviceTurn s).Inv := by
  obtain ⟨k, c, r, d, i, h⟩ := deviceTurn_eq (s := s)
  rw [h]
  exact hs

theorem Inv_requestTurn (l : List InterruptSource) (hl : ∀ i ∈ l, i ∈ s.params.interruptSources) (hs : s.Inv) :
    (requestTurn l s).Inv := by
  induction l generalizing s with
  | nil => exact hs
  | cons i rest ih =>
    unfold requestTurn
    have hrest : ∀ j ∈ rest, j ∈ s.params.interruptSources := fun j hj => hl j (List.mem_cons_of_mem _ hj)
    split
    · exact ih hrest hs
    · next hi =>
      split
      · refine ih (s := { s.drawn 1 with pending := s.pending ++ [i] }) hrest ⟨hs.1, ?_, ?_⟩
        · refine List.nodup_append.mpr ⟨hs.2.1, List.nodup_singleton i, ?_⟩
          rintro a ha b hb rfl
          rw [List.mem_singleton] at hb
          exact hi (hb ▸ ha)
        · intro j hj
          rcases List.mem_append.mp hj with hj | hj
          · exact hs.2.2 j hj
          · rw [List.mem_singleton] at hj
            exact hj ▸ hl i (by simp)
      · exact ih (s := s.drawn 1) hrest hs

theorem Inv_takeRequest {r : InterruptSource × State} (hs : s.Inv) (h : takeRequest s = some r) : r.2.Inv := by
  obtain ⟨-, h2⟩ := takeRequest_some h
  rw [h2]
  exact ⟨hs.1, hs.2.1.erase _, fun i hi => hs.2.2 i (List.mem_of_mem_erase hi)⟩

theorem Inv_trapEntry {v : BitVec 8} (hs : s.Inv) (h : trapEntry v s = .next t) : t.Inv := by
  obtain ⟨r, h1, h2⟩ := andThen_eq_next.mp h
  obtain rfl := Host.Outcome.next.inj h2
  exact Inv_memRead (s := s.writeReg regLink s.pc) hs h1

theorem Inv_interruptEntry {start : Word} (hs : s.Inv) (h : interruptEntry start s = .next t) : t.Inv := by
  obtain ⟨s2, h1, h2⟩ := andThen_eq_next.mp h
  obtain ⟨s4, h3, h4⟩ := andThen_eq_next.mp h2
  obtain rfl := Host.Outcome.next.inj h4
  have i2 : s2.Inv := Inv_memWrite (s := s.writeReg regSP (s.readReg regSP + 1)) hs h1
  exact Inv_memWrite (t := s4) (Inv_betweenAccesses _ (s := s2.writeReg regSP (s2.readReg regSP + 1)) i2) h3

theorem Inv_interruptReturn (hs : s.Inv) (h : interruptReturn s = .next t) : t.Inv := by
  obtain ⟨r1, h1, h2⟩ := andThen_eq_next.mp h
  obtain ⟨r2, h3, h4⟩ := andThen_eq_next.mp h2
  obtain rfl := Host.Outcome.next.inj h4
  have i1 : r1.2.Inv := Inv_memRead hs h1
  exact Inv_memRead (r := r2) (Inv_betweenAccesses _ (s := (r1.2.popFlags r1.1).writeReg regSP _) i1) h3

/-! ### The system calls -/

/-- What every call leaves: registers, codes and the operating system's area any value; nothing else changed. -/
theorem freeMemory_eq (l : List Word) : ∃ k m, freeMemory l s = { s.drawn k with mem := m } ∧
    ∀ a : Word, a ∉ l → m.read a.toNat = s.mem.read a.toNat := by
  induction l generalizing s with
  | nil => exact ⟨0, s.mem, rfl, fun _ _ => rfl⟩
  | cons a rest ih =>
    unfold freeMemory
    split
    · obtain ⟨k, m, h, hm⟩ := ih (s := (s.drawn 1).writeMem a (Config.freeWord s.draws))
      refine ⟨1 + k, m, by rw [h]; simp [State.drawn, State.writeMem, Nat.add_assoc], fun b hb => ?_⟩
      rw [List.mem_cons, not_or] at hb
      rw [hm b hb.2]
      exact Memory.read_write_ne _ _ (fun e => hb.1 (BitVec.eq_of_toNat_eq e))
    · obtain ⟨k, m, h, hm⟩ := ih (s := s)
      exact ⟨k, m, h, fun b hb => hm b (fun hc => hb (List.mem_cons_of_mem _ hc))⟩

theorem afterCall_eq : ∃ k g n z p m,
    afterCall s = { s.drawn k with regs := g, n := n, z := z, p := p, mem := m } ∧
      ∀ a : Word, a ∉ s.params.osArea → m.read a.toNat = s.mem.read a.toNat := by
  obtain ⟨k, m, h, hm⟩ := freeMemory_eq (s := freeRegisters s) s.params.osArea
  refine ⟨11 + k, (freeRegisters s).regs, (freeRegisters s).n, (freeRegisters s).z, (freeRegisters s).p, m, ?_, hm⟩
  rw [afterCall, h]
  simp [freeRegisters, State.drawn, Nat.add_assoc]

theorem Inv_freeMemory (l : List Word) (hs : s.Inv) : (freeMemory l s).Inv := by
  induction l generalizing s with
  | nil => exact hs
  | cons a rest ih =>
    unfold freeMemory
    split
    · next h => exact ih ⟨Memory.wf_write (m := s.mem) hs.1 (isMemory_iff.mp h).1 _, hs.2⟩
    · exact ih hs

theorem Inv_afterCall (hs : s.Inv) : (afterCall s).Inv := Inv_freeMemory _ (s := freeRegisters s) hs

theorem displayText_eq (cs : List Byte) : ∃ r d, displayText cs s =
    { s with output := s.output ++ cs, crtData := d, crtReady := r } := by
  by_cases h : cs = []
  · subst h
    exact ⟨s.crtReady, s.crtData, by simp⟩
  · exact ⟨false, _, displayText_cons_ne_nil cs h⟩

end Sys2Proof.Machine
end

