-- ==== Sys2Proof/Laws/PerInstr.lean ====
section
/-! SUPPORT. Statements made per instruction: the opcode each instruction's word carries in bits [15:12]
(30_encoding.md R81, R83). -/

namespace Sys2Proof.Laws.OpcodeBits

/-- The opcode map of 30_encoding.md R83. -/
def opcodeOf : Instr → BitVec 4
  | .br _ _ _ _ => 0x0
  | .addReg _ _ _ | .addImm _ _ _ => 0x1
  | .ld _ _ => 0x2
  | .st _ _ => 0x3
  | .jsr _ | .jmp _ => 0x4
  | .andReg _ _ _ | .andImm _ _ _ => 0x5
  | .ldr _ _ _ => 0x6
  | .str _ _ _ => 0x7
  | .rti => 0x8
  | .not _ _ => 0x9
  | .ldi _ _ => 0xA
  | .sti _ _ => 0xB
  | .jsrr _ _ | .jmpr _ _ => 0xC
  | .ret => 0xD
  | .lea _ _ => 0xE
  | .trap _ => 0xF

/-- The instruction's word carries its opcode in bits [15:12]. -/
def Statement (i : Instr) : Prop := (encode i).extractLsb' 12 4 = opcodeOf i

/-- A placed field does not reach the opcode. -/
theorem opcode_place {w : Nat} (v : BitVec w) (lo : Nat) (h : w + lo ≤ 12) :
    (place v lo).extractLsb' 12 4 = 0 := by
  apply BitVec.eq_of_getLsbD_eq
  intro i hi
  simp only [place, BitVec.getLsbD_extractLsb', BitVec.getLsbD_shiftLeft, BitVec.getLsbD_setWidth]
  have : v.getLsbD (12 + i - lo) = false := BitVec.getLsbD_of_ge _ _ (by omega)
  simp [this]

theorem extract_or (a b : Word) : (a ||| b).extractLsb' 12 4 = a.extractLsb' 12 4 ||| b.extractLsb' 12 4 := by
  apply BitVec.eq_of_getLsbD_eq
  intro i hi
  simp [Bool.and_or_distrib_left]

theorem addReg (dr sr1 sr2 : Reg) : Statement (.addReg dr sr1 sr2) := by
  simp [Statement, encode, opcodeOf, extract_or, opcode_place]

theorem addImm (dr sr1 : Reg) (imm5 : BitVec 5) : Statement (.addImm dr sr1 imm5) := by
  simp [Statement, encode, opcodeOf, extract_or, opcode_place]

theorem andReg (dr sr1 sr2 : Reg) : Statement (.andReg dr sr1 sr2) := by
  simp [Statement, encode, opcodeOf, extract_or, opcode_place]

theorem andImm (dr sr1 : Reg) (imm5 : BitVec 5) : Statement (.andImm dr sr1 imm5) := by
  simp [Statement, encode, opcodeOf, extract_or, opcode_place]

theorem br (n z p : Bool) (off9 : BitVec 9) : Statement (.br n z p off9) := by
  simp [Statement, encode, opcodeOf, placeBit, extract_or, opcode_place]

theorem jsr (off9 : BitVec 9) : Statement (.jsr off9) := by
  simp [Statement, encode, opcodeOf, extract_or, opcode_place]

theorem jmp (off9 : BitVec 9) : Statement (.jmp off9) := by
  simp [Statement, encode, opcodeOf, extract_or, opcode_place]

theorem jsrr (baseR : Reg) (index6 : BitVec 6) : Statement (.jsrr baseR index6) := by
  simp [Statement, encode, opcodeOf, extract_or, opcode_place]

theorem jmpr (baseR : Reg) (index6 : BitVec 6) : Statement (.jmpr baseR index6) := by
  simp [Statement, encode, opcodeOf, extract_or, opcode_place]

theorem ld (dr : Reg) (off9 : BitVec 9) : Statement (.ld dr off9) := by
  simp [Statement, encode, opcodeOf, extract_or, opcode_place]

theorem ldi (dr : Reg) (off9 : BitVec 9) : Statement (.ldi dr off9) := by
  simp [Statement, encode, opcodeOf, extract_or, opcode_place]

theorem ldr (dr baseR : Reg) (index6 : BitVec 6) : Statement (.ldr dr baseR index6) := by
  simp [Statement, encode, opcodeOf, extract_or, opcode_place]

theorem lea (dr : Reg) (off9 : BitVec 9) : Statement (.lea dr off9) := by
  simp [Statement, encode, opcodeOf, extract_or, opcode_place]

theorem not (dr sr : Reg) : Statement (.not dr sr) := by
  simp [Statement, encode, opcodeOf, extract_or, opcode_place]

theorem ret : Statement .ret := by
  simp [Statement, encode, opcodeOf]

theorem rti : Statement .rti := by
  simp [Statement, encode, opcodeOf]

theorem st (sr : Reg) (off9 : BitVec 9) : Statement (.st sr off9) := by
  simp [Statement, encode, opcodeOf, extract_or, opcode_place]

theorem sti (sr : Reg) (off9 : BitVec 9) : Statement (.sti sr off9) := by
  simp [Statement, encode, opcodeOf, extract_or, opcode_place]

theorem str (sr baseR : Reg) (index6 : BitVec 6) : Statement (.str sr baseR index6) := by
  simp [Statement, encode, opcodeOf, extract_or, opcode_place]

theorem trap (trapvect8 : BitVec 8) : Statement (.trap trapvect8) := by
  simp [Statement, encode, opcodeOf, extract_or, opcode_place]

end Sys2Proof.Laws.OpcodeBits
end

