-- ==== Sys2Proof/Tests/Slice0.lean ====
section
/-! SUPPORT. The model's own tests: words decoded, one instruction at a time from the spec's vectors (95_test_vectors.md),
and for every statement with hypotheses a state and operands that meet them. -/

namespace Sys2Proof.Tests

open Sys2Proof Sys2Proof.Machine

/-! ### Helpers -/

/-- The next state, if there is one, has the property. -/
def holds (o : Host.Outcome State Fault Refusal) (f : State → Bool) : Bool :=
  match o with
  | .next t => f t
  | .fault _ => false
  | .refused _ => false

/-- The outcome is this refusal. -/
def refusedAs (o : Host.Outcome State Fault Refusal) (r : Refusal) : Bool :=
  match o with
  | .refused q => q == r
  | .next _ => false
  | .fault _ => false

/-- Right before the instruction at x3000 executes: the PC is incremented. -/
def at3000 : State := State.reset.setPc 0x3001

/-- N, Z, P of a state. -/
def nzp (t : State) : Bool × Bool × Bool := (t.n, t.z, t.p)

/-- A state whose parameters have one change. -/
def withContract (s : State) : State := { s with params := { s.params with trapModel := .contract } }

/-- A state in which one address is in IO_EXTRA. -/
def withIoExtra (s : State) (a : Word) : State := { s with params := { s.params with ioExtra := [a] } }

/-! ### Well-formedness (30_encoding.md R99) -/

theorem test_trap_1F_ill_formed : Instr.wellFormed (.trap 0x1F) = false := by decide

theorem test_trap_20_well_formed : Instr.wellFormed (.trap 0x20) = true := by decide

/-! ### Decoding: words written out bit by bit from Figure A.1 (30_encoding.md R82) -/

theorem test_decode_addReg : decode 0b0001010011000100 = some (.addReg 2 3 4) := by decide

theorem test_decode_addImm : decode 0b0001010011111111 = some (.addImm 2 3 0x1F) := by decide

theorem test_decode_andReg : decode 0b0101111110000101 = some (.andReg 7 6 5) := by decide

theorem test_decode_andImm : decode 0b0101010011110000 = some (.andImm 2 3 0x10) := by decide

theorem test_decode_br : decode 0b0000101000000101 = some (.br true false true 5) := by decide

theorem test_decode_jsr : decode 0b0100100111111111 = some (.jsr 0x1FF) := by decide

theorem test_decode_jmp : decode 0b0100000100000000 = some (.jmp 0x100) := by decide

theorem test_decode_jsrr : decode 0b1100100010001010 = some (.jsrr 2 10) := by decide

theorem test_decode_jmpr : decode 0b1100000111000000 = some (.jmpr 7 0) := by decide

theorem test_decode_ld : decode 0b0010100000010000 = some (.ld 4 0x10) := by decide

theorem test_decode_ldi : decode 0b1010100000010001 = some (.ldi 4 0x11) := by decide

theorem test_decode_ldr : decode 0b0110100010111111 = some (.ldr 4 2 63) := by decide

theorem test_decode_lea : decode 0b1110100001000000 = some (.lea 4 0x40) := by decide

theorem test_decode_not : decode 0b1001100010111111 = some (.not 4 2) := by decide

theorem test_decode_ret : decode 0b1101000000000000 = some .ret := by decide

theorem test_decode_rti : decode 0b1000000000000000 = some .rti := by decide

theorem test_decode_st : decode 0b0011100000010000 = some (.st 4 0x10) := by decide

theorem test_decode_sti : decode 0b1011001000010001 = some (.sti 1 0x11) := by decide

theorem test_decode_str : decode 0b0111100010001010 = some (.str 4 2 10) := by decide

theorem test_decode_trap : decode 0b1111000000100011 = some (.trap 0x23) := by decide

/-- 95_test_vectors.md V2, V4, V6, V7, V8, V9, V10, V11, V12, V13, V16: fixed bits wrong. -/
theorem test_decode_undefined :
    decode 0x1008 = none ∧ decode 0x5010 = none ∧ decode 0x4A40 = none ∧ decode 0x4440 = none ∧
      decode 0xCC8A = none ∧ decode 0x9880 = none ∧ decode 0x98BE = none ∧ decode 0xD001 = none ∧
      decode 0x8001 = none ∧ decode 0xF123 = none ∧ decode 0xFFFF = none := by decide

/-- 95_test_vectors.md V1, V3, V14: words that do decode. -/
theorem test_decode_edges :
    decode 0x0000 = some (.br false false false 0) ∧ decode 0x1020 = some (.addImm 0 0 0) ∧
      decode 0xF01F = some (.trap 0x1F) := by decide

theorem test_encode_examples :
    encode (.addReg 2 3 4) = 0x14C4 ∧ encode (.br false true true 5) = 0x0605 ∧ encode (.jsrr 2 10) = 0xC88A ∧
      encode (.not 4 2) = 0x98BF ∧ encode (.trap 0x23) = 0xF023 := by decide

/-! ### Operate (95_test_vectors.md 2.2) -/

/-- V21: signed overflow wraps and sets N. -/
theorem test_add_overflow : holds (exec (.addReg 2 3 4) ((at3000.writeReg 3 0x7FFF).writeReg 4 0x0001))
    (fun t => t.readReg 2 == 0x8000 && nzp t == (true, false, false)) = true := by decide

/-- V28: the same register three times. -/
theorem test_add_doubles : holds (exec (.addReg 1 1 1) (at3000.writeReg 1 0x4000))
    (fun t => t.readReg 1 == 0x8000 && t.pc == 0x3001) = true := by decide

/-- V25: imm5 = 10000 is -16. -/
theorem test_add_imm_negative : holds (exec (.addImm 7 0 0x10) (at3000.writeReg 0 0x0010))
    (fun t => t.readReg 7 == 0x0000 && nzp t == (false, true, false)) = true := by decide

/-- V27: imm5 = 01111 is the largest. -/
theorem test_add_imm_largest : holds (exec (.addImm 0 0 0x0F) (at3000.writeReg 0 0x7FF1))
    (fun t => t.readReg 0 == 0x8000 && nzp t == (true, false, false)) = true := by decide

/-- V30. -/
theorem test_and_reg : holds (exec (.andReg 2 3 4) ((at3000.writeReg 3 0xFF0F).writeReg 4 0x0FF0))
    (fun t => t.readReg 2 == 0x0F00 && nzp t == (false, false, true)) = true := by decide

/-- V33: the mask is sign-extended. -/
theorem test_and_imm_sign_extended : holds (exec (.andImm 2 3 0x10) (at3000.writeReg 3 0xABCD))
    (fun t => t.readReg 2 == 0xABC0 && nzp t == (true, false, false)) = true := by decide

/-- V36b. -/
theorem test_not : holds (exec (.not 4 2) (at3000.writeReg 2 0x8000))
    (fun t => t.readReg 4 == 0x7FFF && nzp t == (false, false, true)) = true := by decide

/-! ### Control (95_test_vectors.md 2.3) -/

/-- The truth table: BRzp under NZP = 010 is taken, under NZP = 100 is not (V40, V41). -/
theorem test_br_zp : holds (exec (.br false true true 5) (at3000.setFlags false true false)) (fun t => t.pc == 0x3005) = true ∧
    holds (exec (.br false true true 5) (at3000.setFlags true false false)) (fun t => t.pc == 0x3001) = true := by decide

/-- V42: in the last word of a page the target is in the next page. -/
theorem test_br_last_word_of_page : holds (exec (.br true true true 5) ((State.reset.setPc 0x3200).setFlags false false true))
    (fun t => t.pc == 0x3205) = true := by decide

/-- V48. -/
theorem test_jsr : holds (exec (.jsr 0) (State.reset.setPc 0x3200))
    (fun t => t.readReg 7 == 0x3200 && t.pc == 0x3200) = true := by decide

/-- V47. -/
theorem test_jmp : holds (exec (.jmp 0x40) (at3000.writeReg 7 0x1111))
    (fun t => t.readReg 7 == 0x1111 && t.pc == 0x3040) = true := by decide

/-- V52: R7 is written before it is read as the base. -/
theorem test_jsrr_base_r7 : holds (exec (.jsrr 7 1) (at3000.writeReg 7 0x5000))
    (fun t => t.readReg 7 == 0x3001 && t.pc == 0x3002) = true := by decide

/-- V53. -/
theorem test_jmpr_wraps : holds (exec (.jmpr 2 63) (at3000.writeReg 2 0xFFFF)) (fun t => t.pc == 0x003E) = true := by decide

/-- V54. -/
theorem test_ret : holds (exec .ret ((at3000.writeReg 7 0x5000).setFlags true false false))
    (fun t => t.pc == 0x5000 && t.readReg 7 == 0x5000 && nzp t == (true, false, false)) = true := by decide

/-! ### Loads (95_test_vectors.md 2.4) -/

/-- V62: the page of the incremented PC. -/
theorem test_ld_next_page :
    holds (exec (.ld 4 0x10) (((State.reset.setPc 0x3200).writeMem 0x3210 0x1234).writeMem 0x3010 0x5555))
      (fun t => t.readReg 4 == 0x1234 && nzp t == (false, false, true)) = true := by decide

/-- V65: two reads. -/
theorem test_ldi : holds (exec (.ldi 4 0x11) ((at3000.writeMem 0x3011 0x4000).writeMem 0x4000 0x8001))
    (fun t => t.readReg 4 == 0x8001 && nzp t == (true, false, false)) = true := by decide

/-- V70: the sum wraps. -/
theorem test_ldr_wraps : holds (exec (.ldr 4 2 63) ((at3000.writeReg 2 0xFFF0).writeMem 0x002F 0x8000))
    (fun t => t.readReg 4 == 0x8000 && nzp t == (true, false, false)) = true := by decide

/-- V71: the base is read before the destination is written. -/
theorem test_ldr_base_is_destination : holds (exec (.ldr 2 2 0) ((at3000.writeReg 2 0x4000).writeMem 0x4000 0x0009))
    (fun t => t.readReg 2 == 0x0009) = true := by decide

/-- V75: an address of x8000 or above sets N. -/
theorem test_lea : holds (exec (.lea 4 0x1FF) (State.reset.setPc 0x8001))
    (fun t => t.readReg 4 == 0x81FF && nzp t == (true, false, false)) = true := by decide

/-! ### Stores (95_test_vectors.md 2.5) -/

/-- V80. -/
theorem test_st : holds (exec (.st 4 0x10) ((at3000.writeReg 4 0xBEEF).setFlags false false true))
    (fun t => t.mem.read 0x3010 == 0xBEEF && nzp t == (false, false, true)) = true := by decide

/-- V84: a character is displayed and the display is busy. -/
theorem test_sti_displays :
    holds (exec (.sti 4 0x11) { (at3000.writeReg 4 0x0041).writeMem 0x3011 0xF3FF with crtReady := true })
      (fun t => t.output == [0x41] && !t.crtReady) = true := by decide

/-- V85, V88: the refused stores. -/
theorem test_sti_refused :
    refusedAs (exec (.sti 4 0x11) ((at3000.writeReg 4 0x0041).writeMem 0x3011 0xF3FF)) .displayNotReady = true ∧
      refusedAs (exec (.sti 4 0x11) (at3000.writeMem 0x3011 0xF400)) (.storeToDeviceRegister 0xF400) = true := by decide

/-- V90: the sum wraps. -/
theorem test_str_wraps : holds (exec (.str 4 2 63) ((at3000.writeReg 2 0xFFC1).writeReg 4 0xBEEF))
    (fun t => t.mem.read 0x0000 == 0xBEEF) = true := by decide

/-- A word of zero leaves nothing listed: equal memories are equal data. -/
theorem test_store_zero_is_canonical :
    holds (exec (.st 0 0x10) (at3000.writeMem 0x3010 0x1234)) (fun t => t.mem == []) = true := by decide

/-! ### System (95_test_vectors.md 2.6, 2.7) -/

/-- V100. -/
theorem test_trap : holds (exec (.trap 0x23) ((State.reset.setPc 0x3006).writeMem 0x0023 0x04A0))
    (fun t => t.readReg 7 == 0x3006 && t.pc == 0x04A0) = true := by decide

/-- V103. -/
theorem test_trap_reserved : refusedAs (exec (.trap 0x1F) at3000) (.reservedTrapVector 0x1F) = true := by decide

/-- V106: bits [15:3] of the popped word are ignored. -/
theorem test_rti : holds (exec .rti (((at3000.writeReg 6 0x4001).writeMem 0x4001 0xFFFA).writeMem 0x4000 0x3456))
    (fun t => nzp t == (false, true, false) && t.pc == 0x3456 && t.readReg 6 == 0x3FFF) = true := by decide

/-- V108: R6 wraps. -/
theorem test_rti_wraps : holds (exec .rti ((at3000.writeMem 0x0000 0x0001).writeMem 0xFFFF 0x1234))
    (fun t => nzp t == (false, false, true) && t.pc == 0x1234 && t.readReg 6 == 0xFFFE) = true := by decide

/-- NZP_LAYOUT as a function that is not one bit for each code (00_scope.md R6): the word x0007 stands for N. -/
theorem test_rti_table_layout :
    holds (exec .rti { (at3000.writeReg 6 0x4001).writeMem 0x4001 0x0007 with
        params := { Params.specDefault with nzpLayout := .table [(0x0007, ⟨true, false, false⟩)] [] } })
      (fun t => nzp t == (true, false, false)) = true := by decide

/-- The state before V110. -/
def beforeInterrupt : State := ((State.reset.setPc 0x3004).writeReg 6 0x4000).setFlags false false true

/-- V110. -/
theorem test_interrupt_entry : holds (interruptEntry 0x0500 beforeInterrupt)
    (fun t => t.mem.read 0x4001 == 0x3004 && t.mem.read 0x4002 == 0x0001 && t.readReg 6 == 0x4002 && t.pc == 0x0500) =
      true := by decide

/-! ### Devices and steps (95_test_vectors.md 2.8) -/

/-- V87 and V86: MCR with bit 15 set goes on, with bit 15 clear stops. -/
theorem test_mcr : holds (memWrite 0xF402 0x8000 State.reset) (fun t => t.clockEnable) = true ∧
    holds (memWrite 0xF402 0x7FFF State.reset) (fun t => !t.clockEnable) = true := by decide

/-- V127. -/
theorem test_fetch_from_device : refusedAs (step (State.reset.setPc 0xF400)) (.fetchFromDevice 0xF400) = true := by decide

/-- V56: the instruction at xFFFF runs with the PC wrapped to x0000. -/
theorem test_step_wraps : holds (step (((State.reset.setPc 0xFFFF).writeMem 0xFFFF 0x1021).writeReg 0 0x0001))
    (fun t => t.readReg 0 == 0x0002 && t.pc == 0x0000) = true := by decide

/-- V82: the stored word is the next one fetched. -/
theorem test_store_then_fetch :
    holds (step ((State.reset.writeMem 0x3000 0x3801).writeReg 4 0x5020)) (fun t => t.mem.read t.pc.toNat == 0x5020) =
      true := by decide

/-- V130: GETC in contract mode. -/
theorem test_getc : holds (exec (.trap 0x20) { withContract at3000 with kbdInput := ⟨[0x61], none⟩ })
    (fun t => t.readReg 0 == 0x0061 && t.kbdInput == ⟨[], none⟩ && t.output == [] && t.pc == 0x3001) = true := by decide

/-- An endless KBD_INPUT (00_scope.md R6): GETC takes its next character, and there is always another. -/
theorem test_getc_endless : holds (exec (.trap 0x20) { withContract at3000 with kbdInput := ⟨[], some 4⟩ })
    (fun t => t.kbdInput == ⟨[], some 5⟩) = true := by decide

/-- V132: PUTS in contract mode. -/
theorem test_puts :
    holds (exec (.trap 0x22) (((withContract at3000).writeReg 0 0x3100).writeMem 0x3100 0x0048 |>.writeMem 0x3101 0x0049))
      (fun t => t.output == [0x48, 0x49] && t.pc == 0x3001) = true := by decide

/-! ### Witnesses: what the statements' hypotheses ask can be met -/

theorem witness_WrongFixedBitsAreUndefined : let s := State.reset.writeMem 0x3000 0x1008
    s.clockEnable = true ∧ takeRequest (agentsTurn s) = none ∧ isMemory s s.pc = true ∧
      decode (s.mem.read s.pc.toNat) = none := ⟨rfl, rfl, by decide, by decide⟩

theorem witness_LdLoadsFromPage :
    canRead at3000 (pgaddr at3000.pc 0x10) ∧ canRead (State.reset.setPc 0xF400) (pgaddr 0xF400 0x001) ∧
      ¬canRead (withIoExtra at3000 0x3010) (pgaddr at3000.pc 0x10) := by decide

theorem witness_LdiLoadsThroughPointer :
    canRead at3000 (pgaddr at3000.pc 0x11) ∧
      (∀ q, ReadsAs at3000 (pgaddr at3000.pc 0x11) q → canRead at3000 q) ∧
      isMemory at3000 (pgaddr at3000.pc 0x11) = true ∧
      isMemory at3000 (at3000.mem.read (pgaddr at3000.pc 0x11).toNat) = true :=
  ⟨by decide, fun _ _ => .inr List.not_mem_nil, by decide, by decide⟩

/-- A device register as the pointer word: KBSR, from code in its page. -/
theorem witness_LdiLoadsThroughPointer_device :
    canRead (State.reset.setPc 0xF410) (pgaddr 0xF410 0x000) ∧ isDevice (pgaddr 0xF410 0x000) = true ∧
      ∀ q, ReadsAs (State.reset.setPc 0xF410) (pgaddr 0xF410 0x000) q → canRead (State.reset.setPc 0xF410) q :=
  ⟨by decide, by decide, fun _ _ => .inr List.not_mem_nil⟩

theorem witness_LdiLoadsThroughPointer_refused :
    ¬canRead (withIoExtra at3000 0x3011) (pgaddr at3000.pc 0x11) ∧
      memRead (pgaddr at3000.pc 0x11) (withIoExtra (at3000.writeMem 0x3011 0x4000) 0x4000) =
        .next (0x4000, withIoExtra (at3000.writeMem 0x3011 0x4000) 0x4000) ∧
      ¬canRead (withIoExtra (at3000.writeMem 0x3011 0x4000) 0x4000) 0x4000 :=
  ⟨by decide, rfl, by decide⟩

theorem witness_LdrLoadsFromBasePlusIndex : let s := at3000.writeReg 2 0xFFF0
    (0x002F : Word).toNat = ((s.readReg 2).toNat + (63 : BitVec 6).toNat) % 65536 ∧ canRead s 0x002F ∧
      ¬canRead (withIoExtra s 0x002F) 0x002F := by decide

theorem witness_StStoresToPage :
    canWrite at3000 (pgaddr at3000.pc 0x10) ∧
      canWrite (State.reset.setPc 0xF410) (pgaddr 0xF410 0x002) ∧
      canWrite { State.reset.setPc 0xF210 with crtReady := true } (pgaddr 0xF210 0x1FF) ∧
      ¬canWrite (State.reset.setPc 0xF210) (pgaddr 0xF210 0x1FF) ∧
      ¬canWrite (State.reset.setPc 0xF410) (pgaddr 0xF410 0x001) := by decide

theorem witness_StiStoresThroughPointer : let s := at3000.writeMem 0x3011 0x4000
    memRead (pgaddr s.pc 0x11) s = .next (0x4000, s) ∧ canWrite (betweenAccesses (pgaddr s.pc 0x11) s) 0x4000 ∧
      isMemory s (pgaddr s.pc 0x11) = true ∧ canWrite s (s.mem.read (pgaddr s.pc 0x11).toNat) :=
  ⟨rfl, by decide, by decide, by decide⟩

/-- Pointers in memory to CRTDR while the display is ready, and to MCR. -/
theorem witness_StiStoresThroughPointer_targets :
    let s := { at3000.writeMem 0x3011 0xF3FF with crtReady := true }
    let t := at3000.writeMem 0x3011 0xF402
    memRead (pgaddr s.pc 0x11) s = .next (0xF3FF, s) ∧ canWrite (betweenAccesses (pgaddr s.pc 0x11) s) 0xF3FF ∧
      memRead (pgaddr t.pc 0x11) t = .next (0xF402, t) ∧ canWrite (betweenAccesses (pgaddr t.pc 0x11) t) 0xF402 :=
  ⟨rfl, by decide, rfl, by decide⟩

/-- A device register as the pointer word: KBSR with no key waiting gives an address below x8000, a memory location. -/
theorem witness_StiStoresThroughPointer_device : let s := State.reset.setPc 0xF410
    isDevice (pgaddr s.pc 0x000) = true ∧
      ∃ q m, memRead (pgaddr s.pc 0x000) s = .next (q, m) ∧ canWrite (betweenAccesses (pgaddr s.pc 0x000) m) q := by
  refine ⟨by decide, _, _, rfl, .inr (.inr ⟨isDevice_eq_false.mpr ?_, ?_⟩)⟩
  · have h := statusWord_msb false (Config.freeWord 0)
    refine ⟨?_, ?_, ?_, ?_, ?_⟩ <;> intro e <;> exact absurd ((congrArg BitVec.msb e).symm.trans h) (by decide)
  · rw [betweenAccesses_params]
    exact List.not_mem_nil

theorem witness_StiStoresThroughPointer_refused : let s := at3000.writeMem 0x3011 0xF400
    ¬canRead (withIoExtra at3000 0x3011) (pgaddr at3000.pc 0x11) ∧
      memRead (pgaddr s.pc 0x11) s = .next (0xF400, s) ∧ ¬canWrite (betweenAccesses (pgaddr s.pc 0x11) s) 0xF400 :=
  ⟨by decide, rfl, by decide⟩

theorem witness_StrStoresToBasePlusIndex :
    canWrite (at3000.writeReg 2 0x4000) (baseIndex ((at3000.writeReg 2 0x4000).readReg 2) 10) ∧
      canWrite (at3000.writeReg 2 0xF402) (baseIndex ((at3000.writeReg 2 0xF402).readReg 2) 0) ∧
      canWrite { at3000.writeReg 2 0xF3F0 with crtReady := true } (baseIndex ((at3000.writeReg 2 0xF3F0).readReg 2) 15) ∧
      ¬canWrite (at3000.writeReg 2 0xF3F0) (baseIndex ((at3000.writeReg 2 0xF3F0).readReg 2) 15) ∧
      ¬canWrite (withIoExtra (at3000.writeReg 2 0x4000) 0x400A)
        (baseIndex ((withIoExtra (at3000.writeReg 2 0x4000) 0x400A).readReg 2) 10) ∧
      ¬canWrite (at3000.writeReg 2 0xF3FC) (baseIndex ((at3000.writeReg 2 0xF3FC).readReg 2) 0) := by decide

theorem witness_TrapLinksAndJumpsThroughTable :
    (0x1F : BitVec 8).toNat < 0x20 ∧ 0x20 ≤ (0x20 : BitVec 8).toNat ∧ at3000.params.trapModel = .image ∧
      ((0x20 : BitVec 8).setWidth 16 : Word) ∉ at3000.params.ioExtra ∧
      ((0x20 : BitVec 8).setWidth 16 : Word) ∈ (withIoExtra at3000 0x0020).params.ioExtra ∧
      (0x24 : BitVec 8) ∉ [0x20, 0x21, 0x22, 0x23, (0x25 : BitVec 8)] := by decide

theorem witness_RtiPopsCodesThenPc :
    canRead at3000 (at3000.readReg 6) ∧ canRead at3000 (at3000.readReg 6 - 1) ∧
      isMemory at3000 (at3000.readReg 6) = true ∧
      canRead (at3000.writeReg 6 0xF402) 0xF402 ∧ canRead (at3000.writeReg 6 0xF402) (0xF402 - 1) := by decide

theorem witness_RtiPopsCodesThenPc_refused : let s := withIoExtra (at3000.writeReg 6 0x4001) 0x4001
    let t := withIoExtra (at3000.writeReg 6 0x4001) 0x4000
    ¬canRead s (s.readReg 6) ∧ canRead t (t.readReg 6) ∧ ¬canRead t (t.readReg 6 - 1) := by decide

theorem witness_NzpLayoutOfBits :
    (3 : Fin 16) ≠ 2 ∧ (3 : Fin 16) ≠ 1 ∧ (3 : Fin 16) ≠ 0 ∧ LayoutHasInverse (.bits 15 0 7) ∧
      ¬LayoutHasInverse (.bits 2 2 0) := by decide

theorem witness_GetcReturnsNextKey :
    (withContract at3000).params.trapModel = .contract ∧ nextKey (withContract at3000) = none ∧
      nextKey { withContract at3000 with kbdInput := ⟨[0x61], none⟩ } = some 0x61 ∧
      nextKey { withContract at3000 with kbdReady := true, kbdData := 0x62, kbdInput := ⟨[0x61], none⟩ } = some 0x62 := by decide

theorem witness_OutDisplaysLowByteOfR0 : (withContract at3000).params.trapModel = .contract := by decide

theorem witness_PutsDisplaysStringAtR0 :
    (withContract at3000).params.trapModel = .contract ∧
      StringAt (withContract at3000) ((withContract at3000).readReg 0) [] ∧
      ¬∃ cs, StringAt ((withContract at3000).writeReg 0 0xF402) (((withContract at3000).writeReg 0 0xF402).readReg 0) cs := by
  refine ⟨by decide, ⟨by decide, by decide⟩, ?_⟩
  rintro ⟨_ | ⟨c, cs⟩, h⟩
  · exact absurd h.1 (by decide)
  · exact absurd h.1 (by decide)

theorem witness_InPromptsAndEchoes :
    (withContract at3000).params.trapModel = .contract ∧
      nextKey { withContract at3000 with kbdInput := ⟨[0x37], none⟩ } = some 0x37 ∧ nextKey (withContract at3000) = none := by decide

theorem witness_HaltPrintsAndStops : (withContract at3000).params.trapModel = .contract := by decide

theorem witness_MemReadByAddress :
    canRead (withIoExtra State.reset 0xF403) 0xF402 ∧ ¬canRead (withIoExtra State.reset 0xF403) 0xF403 ∧
      canRead (withIoExtra State.reset 0xF403) 0xF404 := by decide

theorem witness_MemWriteByAddress :
    canWrite State.reset 0xF3FE ∧ canWrite { State.reset with crtReady := true } 0xF3FF ∧
      State.reset.crtReady = false ∧ canWrite State.reset 0xF402 ∧ isDevice 0xF403 = false ∧
      0xF403 ∈ (withIoExtra State.reset 0xF403).params.ioExtra := by decide

theorem witness_FetchReadsMemoryOnly :
    isMemory State.reset 0xF3FD = true ∧ isDevice 0xF3FC = true ∧ isDevice 0xF403 = false ∧
      0xF403 ∈ (withIoExtra State.reset 0xF403).params.ioExtra := by decide

theorem witness_StoreIsSeenByNextFetch : isMemory State.reset 0x0000 = true ∧ isMemory State.reset 0xFFFF = true := by decide

theorem witness_ClearingClockEnableStops : (0x7FFF : Word).getLsbD 15 = false := by decide

theorem witness_PageAddressUsesIncrementedPc :
    (0x31FE : Word).extractLsb' 0 9 ≠ 0x1FF#9 ∧ (0x31FF : Word).extractLsb' 0 9 = 0x1FF#9 := by decide

theorem witness_InterruptEntryPushesPcThenCodes :
    isMemory beforeInterrupt (beforeInterrupt.readReg 6 + 1) = true ∧
      isMemory beforeInterrupt (beforeInterrupt.readReg 6 + 2) = true := by decide

/-- A stack whose first word is MCR and whose second is memory, one whose second word is CRTDR, one whose first is CRTDR while
the display is not ready, and one whose second word is in IO_EXTRA. -/
theorem witness_InterruptEntryPushesPcThenCodes_anywhere :
    let s := beforeInterrupt.writeReg 6 0xF401
    let d := { beforeInterrupt.writeReg 6 0xF3FD with crtReady := true }
    let t := beforeInterrupt.writeReg 6 0xF3FE
    let v := withIoExtra beforeInterrupt 0x4002
    (∃ u, memWrite (s.readReg 6 + 1) s.pc s = .next u ∧
        canWrite (betweenAccesses (s.readReg 6 + 1) u) (s.readReg 6 + 2)) ∧
      (∃ u, memWrite (d.readReg 6 + 1) d.pc d = .next u ∧
        canWrite (betweenAccesses (d.readReg 6 + 1) u) (d.readReg 6 + 2)) ∧
      ¬canWrite t (t.readReg 6 + 1) ∧
      (∃ u, memWrite (v.readReg 6 + 1) v.pc v = .next u ∧
        ¬canWrite (betweenAccesses (v.readReg 6 + 1) u) (v.readReg 6 + 2)) := by
  refine ⟨⟨_, rfl, ?_⟩, ⟨_, rfl, by decide⟩, by decide, _, rfl, by decide⟩
  refine .inr (.inr ⟨by decide, ?_⟩)
  rw [betweenAccesses_params]
  exact List.not_mem_nil

theorem witness_RtiUndoesInterruptEntry :
    isMemory beforeInterrupt (beforeInterrupt.readReg 6 + 1) = true ∧
      isMemory beforeInterrupt (beforeInterrupt.readReg 6 + 2) = true ∧
      LayoutHasInverse beforeInterrupt.params.nzpLayout ∧ ∃ t, interruptEntry 0x0500 beforeInterrupt = .next t :=
  ⟨by decide, by decide, by decide, _, rfl⟩

theorem witness_StepRunsDecodedInstruction : let s := State.reset.writeMem 0x3000 0x14C4
    s.clockEnable = true ∧ takeRequest (agentsTurn s) = none ∧ isMemory s s.pc = true ∧
      decode (s.mem.read s.pc.toNat) = some (.addReg 2 3 4) := ⟨rfl, rfl, by decide, by decide⟩

theorem witness_StepTakesPendingInterrupt :
    ({ State.reset with pending := [⟨1, 0x0500⟩] } : State).clockEnable = true ∧
      (agentsTurn { State.reset with pending := [⟨1, 0x0500⟩] }).pending ≠ [] := by decide

theorem witness_StoppedExactlyWhenClockDisabled :
    ({ State.reset with clockEnable := false } : State).params.trapModel = .image ∧
      step { State.reset with clockEnable := false } = .fault .stopped := ⟨rfl, rfl⟩

theorem witness_AgentsTouchOnlyTheirOwn : ({ State.reset with crtReady := true } : State).crtReady = true := by decide

theorem witness_DevicesBetweenAccessesTouchOnlyTheirOwn :
    isDevice 0xF3FD = false ∧ ({ State.reset with crtReady := true } : State).crtReady = true := by decide

theorem witness_KeyboardInputIsFiniteOrInfinite :
    keyNumber ⟨[0x61], none⟩ 0 = some 0x61 ∧ keyNumber ⟨[0x61], none⟩ 1 = none ∧
      keyNumber ⟨[0x61], some 0⟩ 3 = some (Config.freeKey 2) := ⟨rfl, rfl, rfl⟩

theorem witness_PlacedWordRunsNext :
    isMemory State.reset State.reset.pc = true ∧ decode (BitVec.ofNat 16 0x14C4) = some (.addReg 2 3 4) ∧
      0x14C4 < 65536 := by decide

theorem witness_StepKeepsInvariant : State.reset.Inv ∧ ∃ t, step State.reset = .next t := ⟨by decide, _, rfl⟩

theorem witness_ScreenOnlyGrowsAndInputOnlyDrains : ∃ t, step State.reset = .next t := ⟨_, rfl⟩

theorem witness_CodesWrittenOnlyByNamedInstructions :
    at3000.params.trapModel = .image ∧ (∃ t, exec (.addReg 2 3 4) at3000 = .next t) ∧
      setsCodes (.addReg 2 3 4) = true ∧ (∃ t, exec .ret at3000 = .next t) ∧ setsCodes .ret = false ∧
      (.ret : Instr) ≠ .rti :=
  ⟨rfl, ⟨_, rfl⟩, rfl, ⟨_, rfl⟩, rfl, by decide⟩

theorem witness_PcWrittenOnlyByControlInstructions :
    (∃ t, exec (.st 4 0x10) at3000 = .next t) ∧ writesPc (.st 4 0x10) = false := ⟨⟨_, rfl⟩, rfl⟩

theorem witness_RegistersWrittenOnlyAsNamed :
    at3000.params.trapModel = .image ∧ ∃ t, exec (.jsr 0x40) at3000 = .next t := ⟨rfl, _, rfl⟩

theorem witness_OnlyStoresWriteOutside :
    at3000.params.trapModel = .image ∧ (∃ t, exec (.ld 4 0x10) at3000 = .next t) ∧ isStore (.ld 4 0x10) = false :=
  ⟨rfl, ⟨_, rfl⟩, rfl⟩

theorem witness_NoInstructionRaisesAnException :
    at3000.params.trapModel = .image ∧ exec (.trap 0x00) at3000 = .refused (.reservedTrapVector 0x00) ∧
      exec (.str 4 2 0) (at3000.writeReg 2 0xF3FF) = .refused .displayNotReady ∧
      exec (.str 4 2 0) (at3000.writeReg 2 0xF3FC) = .refused (.storeToDeviceRegister 0xF3FC) := ⟨rfl, rfl, rfl, rfl⟩

theorem witness_EncodeReturnsDecodedWord : decode 0xFFBF = none ∧ decode 0x0FFF = some (.br true true true 0x1FF) := by decide

end Sys2Proof.Tests
end

section
/-! PROOFS of the parameters of 00_scope.md R6: NZP_LAYOUT, as one bit for each code (O25) and as any function (O26),
and KBD_INPUT, finite or infinite (O47). -/

namespace Sys2Proof.Proofs.Scope

open Sys2Proof Sys2Proof.Machine

/-! ### NZP_LAYOUT of one bit for each code -/

/-- One bit for each code gives every codes back exactly when no two codes share a bit. -/
theorem layoutHasInverse_bits_iff (nBit zBit pBit : Fin 16) :
    LayoutHasInverse (.bits nBit zBit pBit) ↔ nBit ≠ zBit ∧ nBit ≠ pBit ∧ zBit ≠ pBit := by
  simp only [LayoutHasInverse, poppedCodes_bits, getLsbD_pushedWord_bits, Codes.mk.injEq]
  constructor
  · intro inverse
    have ⟨_, nNotZ, nNotP⟩ := inverse true false false
    have ⟨_, _, zNotP⟩ := inverse false true false
    exact ⟨by simpa using nNotZ, by simpa using nNotP, by simpa using zNotP⟩
  · rintro ⟨nz, np, zp⟩ n z p
    simp [nz, np, zp, nz.symm, np.symm, zp.symm]

/-- Settles O25: a pushed word has the codes at their three positions and 0 elsewhere, and it gives the codes back
exactly when the positions differ. -/
theorem nzpLayoutOfBits : Obligations.NzpLayoutOfBits := by
  refine ⟨rfl, fun nBit zBit pBit => ⟨poppedCodes_bits nBit zBit pBit, ?_, layoutHasInverse_bits_iff nBit zBit pBit⟩⟩
  intro c i hn hz hp
  rw [getLsbD_pushedWord_bits]
  simp [hn.symm, hz.symm, hp.symm]

/-! ### NZP_LAYOUT as any function -/

/-- Every word, in the order of its value. -/
def allWords : List Word := (List.finRange (2 ^ 16)).map BitVec.ofFin

theorem mem_allWords (w : Word) : w ∈ allWords :=
  List.mem_map.mpr ⟨w.toFin, List.mem_finRange _, rfl⟩

/-- Every value of the three condition codes. -/
def allCodes : List Codes :=
  [⟨false, false, false⟩, ⟨false, false, true⟩, ⟨false, true, false⟩, ⟨false, true, true⟩,
    ⟨true, false, false⟩, ⟨true, false, true⟩, ⟨true, true, false⟩, ⟨true, true, true⟩]

theorem mem_allCodes : ∀ c : Codes, c ∈ allCodes := by
  rintro ⟨_ | _, _ | _, _ | _⟩ <;> decide

/-- The layout whose two tables list the values of two given functions at every word and at every codes. -/
def layoutOfFunctions (popped : Word → Codes) (pushed : Codes → Word) : NzpLayout :=
  .table (allWords.map fun w => (w, popped w)) (allCodes.map fun c => (c, pushed c))

theorem poppedCodes_layoutOfFunctions (popped : Word → Codes) (pushed : Codes → Word) (w : Word) :
    poppedCodes (layoutOfFunctions popped pushed) w = popped w := by
  rw [layoutOfFunctions, poppedCodes_table, List.lookup_graph popped (mem_allWords w), Option.getD_some]

theorem pushedWord_layoutOfFunctions (popped : Word → Codes) (pushed : Codes → Word) (c : Codes) :
    pushedWord (layoutOfFunctions popped pushed) c = pushed c := by
  rw [layoutOfFunctions, pushedWord_table, List.lookup_graph pushed (mem_allCodes c), Option.getD_some]

/-- Settles O26, by the layout whose tables list every word and every codes. -/
theorem nzpLayoutAdmitsEveryFunction : Obligations.NzpLayoutAdmitsEveryFunction :=
  fun popped pushed => ⟨layoutOfFunctions popped pushed, poppedCodes_layoutOfFunctions popped pushed,
    pushedWord_layoutOfFunctions popped pushed⟩

/-! ### KBD_INPUT -/

/-- A sequence has no character of a number exactly when it is finite and ends before that number. -/
theorem keyNumber_eq_none_iff (i : KbdInput) (k : Nat) :
    keyNumber i k = none ↔ i.endless = none ∧ i.typed.length ≤ k := by
  unfold keyNumber
  split
  · next early => simp [early]
  · next late => simp [Nat.le_of_not_lt late]

theorem keyNumber_of_nextTyped_eq_none {i : KbdInput} (h : nextTyped i = none) (k : Nat) : keyNumber i k = none := by
  obtain ⟨noTyped, finite⟩ := nextTyped_eq_none.mp h
  exact (keyNumber_eq_none_iff i k).mpr ⟨finite, by simp [noTyped]⟩

/-- Once the next character is taken, every later one has a number that is one less. -/
theorem keyNumber_succ {i : KbdInput} {r : Byte × KbdInput} (h : nextTyped i = some r) (k : Nat) :
    keyNumber i (k + 1) = keyNumber r.2 k := by
  obtain ⟨_ | ⟨c, cs⟩, endless⟩ := i
  · cases endless with
    | none => cases h
    | some e =>
      obtain rfl := Option.some.inj h
      simp [keyNumber, Nat.add_assoc, Nat.add_comm 1 k]
  · rw [nextTyped_cons] at h
    obtain rfl := Option.some.inj h
    simp [keyNumber]

/-- The character taken after `k` others is the sequence's character of number `k`. -/
theorem nextTyped_afterKeys (k : Nat) (i : KbdInput) : (nextTyped (afterKeys k i)).map (·.1) = keyNumber i k := by
  induction k generalizing i with
  | zero =>
    cases h : nextTyped i with
    | none => simp [afterKeys, h, keyNumber_of_nextTyped_eq_none h]
    | some r => simp [afterKeys, h, (nextTyped_eq_some h).1]
  | succ k ih =>
    cases h : nextTyped i with
    | none => simp [afterKeys_of_none h, h, keyNumber_of_nextTyped_eq_none h]
    | some r => simp [afterKeys, h, ih, keyNumber_succ h]

/-- Settles O47, by induction on the number of characters taken. -/
theorem keyboardInputIsFiniteOrInfinite : Obligations.KeyboardInputIsFiniteOrInfinite :=
  fun i => ⟨fun k => nextTyped_afterKeys k i, keyNumber_eq_none_iff i⟩

end Sys2Proof.Proofs.Scope
end

section
/-! PROOFS. The forms a next state can have, said once for the reads, the other agents' turns and the classes of
instructions: the statements about what an instruction writes are read off these forms. -/

namespace Sys2Proof.Proofs.NextState

open Sys2Proof Sys2Proof.Machine

variable {s t u : State} {i : Instr}

/-! ### What a read and the devices' turn may change -/

/-- `u` is `s` but for what a read and the devices' turn may change: the ready bits, the keyboard and the free values
drawn (20_memory.md R59, R65). -/
def DevicesMoved (s u : State) : Prop :=
  ∃ k c r d i, u = { s.drawn k with crtReady := c, kbdReady := r, kbdData := d, kbdInput := i }

theorem DevicesMoved.refl (s : State) : DevicesMoved s s :=
  ⟨0, s.crtReady, s.kbdReady, s.kbdData, s.kbdInput, rfl⟩

theorem DevicesMoved.trans (hu : DevicesMoved s u) (ht : DevicesMoved u t) : DevicesMoved s t := by
  obtain ⟨j, _, _, _, _, rfl⟩ := hu
  obtain ⟨k, c, r, d, i, rfl⟩ := ht
  exact ⟨j + k, c, r, d, i, by simp [State.drawn, Nat.add_assoc]⟩

theorem devicesMoved_drawn (s : State) (k : Nat) : DevicesMoved s (s.drawn k) :=
  ⟨k, s.crtReady, s.kbdReady, s.kbdData, s.kbdInput, rfl⟩

theorem devicesMoved_memRead {a : Word} {r : Word × State} (h : memRead a s = .next r) : DevicesMoved s r.2 := by
  obtain ⟨-, -, k, hk⟩ := memRead_next h
  exact ⟨k, s.crtReady, _, s.kbdData, s.kbdInput, hk⟩

theorem devicesMoved_betweenAccesses (a : Word) (s : State) : DevicesMoved s (betweenAccesses a s) :=
  betweenAccesses_eq a

theorem devicesMoved_takeKey {r : Byte × State} (h : takeKey s = some r) : DevicesMoved s r.2 := by
  unfold takeKey at h
  split at h
  · obtain rfl := Option.some.inj h
    exact ⟨0, s.crtReady, false, s.kbdData, s.kbdInput, rfl⟩
  split at h
  · cases h
  · obtain rfl := Option.some.inj h
    exact ⟨0, s.crtReady, s.kbdReady, _, _, rfl⟩

theorem DevicesMoved.readReg (h : DevicesMoved s u) (q : Reg) : u.readReg q = s.readReg q := by
  obtain ⟨k, c, r, d, i, rfl⟩ := h
  rfl

theorem DevicesMoved.sameCodes (h : DevicesMoved s u) : SameCodes s u := by
  obtain ⟨k, c, r, d, i, rfl⟩ := h
  exact ⟨rfl, rfl, rfl⟩

theorem DevicesMoved.pc (h : DevicesMoved s u) : u.pc = s.pc := by
  obtain ⟨k, c, r, d, i, rfl⟩ := h
  rfl

theorem DevicesMoved.inv (h : DevicesMoved s u) (hs : s.Inv) : u.Inv := by
  obtain ⟨k, c, r, d, i, rfl⟩ := h
  exact hs

/-- Where the devices moved after a write of the codes and of a register, another write of that register leaves what the
three writes leave when the devices move first. -/
theorem DevicesMoved.of_writeReg_setFlags {a b c : Bool} {q : Reg} {x : Word}
    (h : DevicesMoved ((s.setFlags a b c).writeReg q x) t) :
    ∃ u, DevicesMoved s u ∧ ∀ y, t.writeReg q y = (u.setFlags a b c).writeReg q y := by
  obtain ⟨k, e, r, d, i, rfl⟩ := h
  exact ⟨_, ⟨k, e, r, d, i, rfl⟩, fun y => by simp [State.writeReg, State.setFlags]⟩

/-! ### The agents' turn before a step -/

theorem agentsTurn_pc (s : State) : (agentsTurn s).pc = s.pc := by
  obtain ⟨k, c, r, d, i, q, h⟩ := agentsTurn_eq (s := s)
  rw [h]
  rfl

theorem agentsTurn_params (s : State) : (agentsTurn s).params = s.params := by
  obtain ⟨k, c, r, d, i, q, h⟩ := agentsTurn_eq (s := s)
  rw [h]
  rfl

/-- The agents' turn leaves what the fetch reads (20_memory.md R59). -/
theorem fetchWord_agentsTurn (s : State) : fetchWord (agentsTurn s).pc (agentsTurn s) = fetchWord s.pc s := by
  obtain ⟨k, c, r, d, i, q, h⟩ := agentsTurn_eq (s := s)
  rw [h]
  rfl

/-- Where no source is configured and nothing is pending, no request is there to take. -/
theorem takeRequest_agentsTurn_of_no_sources (hsources : s.params.interruptSources = []) (hpending : s.pending = []) :
    takeRequest (agentsTurn s) = none := by
  obtain ⟨k, c, r, d, i, h⟩ := deviceTurn_eq (s := s)
  rw [takeRequest_eq_none, agentsTurn, hsources, requestTurn, h]
  exact hpending

/-! ### Shared operations -/

/-- A store touches neither the registers nor the codes nor the PC (20_memory.md R54). -/
theorem memWrite_processor {a v : Word} (h : memWrite a v s = .next t) :
    SameRegsExcept [] s t ∧ SameCodes s t ∧ t.pc = s.pc := by
  rcases memWrite_next h with ⟨-, -, rfl⟩ | ⟨-, rfl⟩ | ⟨-, -, rfl⟩
  all_goals exact ⟨fun _ _ => rfl, ⟨rfl, rfl, rfl⟩, rfl⟩

theorem loadFrom_next {a : Word} {dr : Reg} (h : loadFrom a dr s = .next t) :
    ∃ u v, DevicesMoved s u ∧ t = u.writeResult dr v := by
  obtain ⟨r, hr, ht⟩ := andThen_eq_next.mp h
  exact ⟨r.2, r.1, devicesMoved_memRead hr, (Host.Outcome.next.inj ht).symm⟩

theorem trapEntry_next {v : BitVec 8} (h : trapEntry v s = .next t) :
    ∃ u target, DevicesMoved s.link u ∧ t = u.setPc target := by
  obtain ⟨r, hr, ht⟩ := andThen_eq_next.mp h
  exact ⟨r.2, r.1, devicesMoved_memRead hr, (Host.Outcome.next.inj ht).symm⟩

/-- RTI writes the codes, R6 and the PC (44_system.md R151). -/
theorem interruptReturn_next (h : interruptReturn s = .next t) :
    ∃ u a b c x target, DevicesMoved s u ∧ t = ((u.setFlags a b c).writeReg regSP x).setPc target := by
  obtain ⟨codesRead, hcodes, h⟩ := andThen_eq_next.mp h
  obtain ⟨pcRead, hpc, h⟩ := andThen_eq_next.mp h
  obtain ⟨u, hu, popped⟩ :=
    ((devicesMoved_betweenAccesses _ _).trans (devicesMoved_memRead hpc)).of_writeReg_setFlags
  exact ⟨u, _, _, _, _, pcRead.1, (devicesMoved_memRead hcodes).trans hu,
    (Host.Outcome.next.inj h).symm.trans (congrArg (State.setPc · pcRead.1) (popped _))⟩

/-! ### The classes of instructions -/

/-- Every instruction that does not write the PC either sets the codes or is a store. -/
theorem setsCodes_or_isStore (h : writesPc i = false) : setsCodes i = true ∨ isStore i = true := by
  cases i <;> simp_all [writesPc, setsCodes, isStore]

/-- ADD, AND, NOT, LD, LDI, LDR, LEA end in a result written to their DR (10_state.md R26). -/
theorem exec_setsCodes_next (hi : setsCodes i = true) (h : exec i s = .next t) :
    ∃ dr u v, writtenRegs i = [dr] ∧ DevicesMoved s u ∧ t = u.writeResult dr v := by
  have operate {dr : Reg} {v : Word} (h : (.next (s.writeResult dr v) : Access State) = .next t) :
      ∃ u v, DevicesMoved s u ∧ t = u.writeResult dr v :=
    ⟨s, v, .refl s, (Host.Outcome.next.inj h).symm⟩
  cases i with
  | addReg dr _ _ | addImm dr _ _ | andReg dr _ _ | andImm dr _ _ | not dr _ | lea dr _ =>
    exact ⟨dr, (operate h).imp fun _ ⟨v, hv⟩ => ⟨v, rfl, hv⟩⟩
  | ld dr _ | ldr dr _ _ => exact ⟨dr, (loadFrom_next h).imp fun _ ⟨v, hv⟩ => ⟨v, rfl, hv⟩⟩
  | ldi dr off9 =>
    obtain ⟨pointer, hpointer, h⟩ := andThen_eq_next.mp h
    obtain ⟨u, v, hu, ht⟩ := loadFrom_next h
    exact ⟨dr, u, v, rfl, ((devicesMoved_memRead hpointer).trans (devicesMoved_betweenAccesses _ _)).trans hu, ht⟩
  | _ => cases hi

/-- ST, STI, STR end in a store (20_memory.md R55). -/
theorem exec_isStore_next (hi : isStore i = true) (h : exec i s = .next t) :
    ∃ u a v, DevicesMoved s u ∧ memWrite a v u = .next t := by
  cases i with
  | st | str => exact ⟨s, _, _, .refl s, h⟩
  | sti =>
    obtain ⟨pointer, hpointer, h⟩ := andThen_eq_next.mp h
    exact ⟨_, _, _, (devicesMoved_memRead hpointer).trans (devicesMoved_betweenAccesses _ _), h⟩
  | _ => cases hi

/-- ST, STI, STR leave the registers, the codes and the PC. -/
theorem exec_isStore_processor (hi : isStore i = true) (h : exec i s = .next t) :
    SameRegsExcept [] s t ∧ SameCodes s t ∧ t.pc = s.pc := by
  obtain ⟨u, a, v, ⟨k, c, r, d, j, rfl⟩, hw⟩ := exec_isStore_next hi h
  exact (memWrite_processor hw :)

/-- TRAP completes as a trap entry or, in contract mode, as a system call (44_system.md R154). -/
theorem execTrap_next {v : BitVec 8} (h : execTrap v s = .next t) :
    (s.params.trapModel = .image ∧ trapEntry v s = .next t) ∨
      (s.params.trapModel = .contract ∧ systemCall v s = .next t) := by
  unfold execTrap at h
  split at h
  · cases h
  split at h
  · next himage => exact .inl ⟨himage, h⟩
  · next hcontract => exact .inr ⟨hcontract, h⟩

/-- BR, JSR, JMP, JSRR, JMPR, RET write the PC and at most the link (41_control.md). -/
theorem exec_jump_next (hi : writesPc i = true) (hrti : i ≠ .rti) (htrap : ∀ v, i ≠ .trap v) (h : exec i s = .next t) :
    ∃ target, t = s.setPc target ∨ writtenRegs i = [regLink] ∧ t = s.link.setPc target := by
  have hnext {t' : State} (h : (.next t' : Access State) = .next t) : t = t' := (Host.Outcome.next.inj h).symm
  cases i with
  | br n z p off9 =>
    by_cases taken : ((n && s.n) || (z && s.z) || (p && s.p)) = true
    · exact ⟨_, .inl ((hnext h).trans (if_pos taken))⟩
    · exact ⟨s.pc, .inl ((hnext h).trans (if_neg taken))⟩
  | jmp | jmpr | ret => exact ⟨_, .inl (hnext h)⟩
  | jsr | jsrr => exact ⟨_, .inr ⟨rfl, hnext h⟩⟩
  | rti => exact absurd rfl hrti
  | trap v => exact absurd rfl (htrap v)
  | _ => cases hi

/-- In image mode the instructions that write the PC, RTI excepted, write nothing else of the processor but the link
(10_state.md R23, R24). -/
theorem exec_writesPc_next (hi : writesPc i = true) (hrti : i ≠ .rti) (himage : s.params.trapModel = .image)
    (h : exec i s = .next t) :
    ∃ u target, (DevicesMoved s u ∨ writtenRegs i = [regLink] ∧ DevicesMoved s.link u) ∧ t = u.setPc target := by
  by_cases htrap : ∃ v, i = .trap v
  · obtain ⟨v, rfl⟩ := htrap
    rcases execTrap_next h with ⟨-, h⟩ | ⟨hcontract, -⟩
    · obtain ⟨u, target, hu, ht⟩ := trapEntry_next h
      exact ⟨u, target, .inr ⟨rfl, hu⟩, ht⟩
    · rw [himage] at hcontract
      cases hcontract
  · obtain ⟨target, ht | ⟨hlink, ht⟩⟩ := exec_jump_next hi hrti (not_exists.mp htrap) h
    · exact ⟨s, target, .inl (.refl s), ht⟩
    · exact ⟨s.link, target, .inr ⟨hlink, .refl _⟩, ht⟩

end Sys2Proof.Proofs.NextState
end

section
/-! PROOFS of what every step keeps and of the state's own rules: the invariant (O49), the stopped machine (O44), which
instructions write the codes, the PC and the registers (O53 to O55), the device registers (O34), setcc (O39), and the step
as the decoded instruction (O42, O48). -/

namespace Sys2Proof.Proofs.StateRules

open Sys2Proof Sys2Proof.Machine Sys2Proof.Proofs.NextState

variable {s t : State} {i : Instr}

/-! ### The invariant -/

theorem Inv_displayText (cs : List Byte) (hs : s.Inv) : (displayText cs s).Inv := by
  obtain ⟨r, d, h⟩ := displayText_eq (s := s) cs
  rw [h]
  exact hs

theorem Inv_callGetc (hs : s.Inv) (h : callGetc s = .next t) : t.Inv := by
  unfold callGetc at h
  split at h
  · cases h
  · next r hr =>
    obtain rfl := Host.Outcome.next.inj h
    exact Inv_afterCall ((devicesMoved_takeKey hr).inv hs)

theorem Inv_callOut (hs : s.Inv) (h : callOut s = .next t) : t.Inv := by
  obtain rfl := Host.Outcome.next.inj h
  exact Inv_afterCall (Inv_displayText _ hs)

theorem Inv_callPuts (hs : s.Inv) (h : callPuts s = .next t) : t.Inv := by
  obtain ⟨cs, -, h⟩ := andThen_eq_next.mp h
  obtain rfl := Host.Outcome.next.inj h
  exact Inv_afterCall (Inv_displayText cs hs)

theorem Inv_callIn (hs : s.Inv) (h : callIn s = .next t) : t.Inv := by
  have prompted : (displayText (Config.freeText s.draws) (s.drawn 2)).Inv :=
    Inv_displayText _ ((devicesMoved_drawn s 2).inv hs)
  unfold callIn at h
  split at h
  · cases h
  · next r hr =>
    obtain rfl := Host.Outcome.next.inj h
    exact Inv_afterCall (Inv_displayText _ ((devicesMoved_takeKey hr).inv prompted))

theorem Inv_callHalt (hs : s.Inv) (h : callHalt s = .next t) : t.Inv := by
  obtain rfl := Host.Outcome.next.inj h
  exact Inv_afterCall (Inv_displayText _ ((devicesMoved_drawn s 2).inv hs))

theorem Inv_systemCall {v : BitVec 8} (hs : s.Inv) (h : systemCall v s = .next t) : t.Inv := by
  unfold systemCall at h
  split_ifs at h
  · exact Inv_callGetc hs h
  · exact Inv_callOut hs h
  · exact Inv_callPuts hs h
  · exact Inv_callIn hs h
  · exact Inv_callHalt hs h
  · exact Inv_trapEntry hs h

/-- Every instruction keeps the invariant, in either trap model. -/
theorem Inv_exec (hs : s.Inv) (h : exec i s = .next t) : t.Inv := by
  by_cases hpc : writesPc i = true
  · by_cases hrti : i = .rti
    · subst hrti
      exact Inv_interruptReturn hs h
    by_cases htrap : ∃ v, i = .trap v
    · obtain ⟨v, rfl⟩ := htrap
      rcases execTrap_next h with ⟨-, h⟩ | ⟨-, h⟩
      · exact Inv_trapEntry hs h
      · exact Inv_systemCall hs h
    · obtain ⟨target, rfl | ⟨-, rfl⟩⟩ := exec_jump_next hpc hrti (not_exists.mp htrap) h
      · exact hs
      · exact hs
  · rcases setsCodes_or_isStore (Bool.eq_false_iff.mpr hpc) with hsets | hstore
    · obtain ⟨dr, u, v, -, hu, rfl⟩ := exec_setsCodes_next hsets h
      exact hu.inv hs
    · obtain ⟨u, a, v, hu, hw⟩ := exec_isStore_next hstore h
      exact Inv_memWrite (hu.inv hs) hw

/-- What a step that gives a next state has run: the entry to a pending interrupt, or the instruction decoded at the PC
(10_state.md R24, 60_exceptions.md R178). -/
theorem step_next (h : step s = .next t) :
    (∃ r, takeRequest (agentsTurn s) = some r ∧ interruptEntry r.1.start r.2 = .next t) ∨
      ∃ i, exec i (agentsTurn s).advancePc = .next t := by
  unfold step at h
  split at h
  · split at h
    · obtain ⟨w, -, h⟩ := andThen_eq_next.mp h
      split at h
      · cases h
      · next i _ => exact .inr ⟨i, h⟩
    · next r hr => exact .inl ⟨r, hr, h⟩
  · cases h

theorem Inv_agentsTurn (hs : s.Inv) : (agentsTurn s).Inv := by
  refine Inv_requestTurn _ (fun i hi => ?_) (Inv_deviceTurn hs)
  obtain ⟨k, c, r, d, j, h⟩ := deviceTurn_eq (s := s)
  rw [h]
  exact hi

/-- Settles O49: the agents' turn, the taking of a request, the interrupt entry and every instruction keep the
invariant. -/
theorem stepKeepsInvariant : Obligations.StepKeepsInvariant := by
  intro s t hs h
  rcases step_next h with ⟨r, hr, hentry⟩ | ⟨i, hexec⟩
  · exact Inv_interruptEntry (Inv_takeRequest (Inv_agentsTurn hs) hr) hentry
  · exact Inv_exec (s := (agentsTurn s).advancePc) (Inv_agentsTurn hs) hexec

/-! ### The stopped machine -/

/-- Going on after what cannot fault with what cannot fault is no fault. -/
theorem andThen_ne_fault {α β : Type} {x : Access α} {f : α → Access β} (hx : ∀ r, x ≠ .fault r)
    (hf : ∀ a r, f a ≠ .fault r) (r : Fault) : andThen x f ≠ .fault r := by
  rw [Ne, andThen_eq_fault]
  rintro (h | ⟨a, -, h⟩)
  · exact hx r h
  · exact hf a r h

theorem next_ne_fault (t : State) (r : Fault) : (.next t : Access State) ≠ .fault r := nofun

theorem loadFrom_ne_fault (a : Word) (dr : Reg) (s : State) (r : Fault) : loadFrom a dr s ≠ .fault r :=
  andThen_ne_fault (memRead_ne_fault a) (fun _ => next_ne_fault _) r

theorem trapEntry_ne_fault (v : BitVec 8) (s : State) (r : Fault) : trapEntry v s ≠ .fault r :=
  andThen_ne_fault (memRead_ne_fault _) (fun _ => next_ne_fault _) r

theorem interruptReturn_ne_fault (s : State) (r : Fault) : interruptReturn s ≠ .fault r :=
  andThen_ne_fault (memRead_ne_fault _)
    (fun _ => andThen_ne_fault (memRead_ne_fault _) fun _ => next_ne_fault _) r

theorem interruptEntry_ne_fault (start : Word) (s : State) (r : Fault) : interruptEntry start s ≠ .fault r :=
  andThen_ne_fault (memWrite_ne_fault _ _)
    (fun _ => andThen_ne_fault (memWrite_ne_fault _ _) fun _ => next_ne_fault _) r

theorem fetchWord_ne_fault (a : Word) (s : State) (r : Fault) : fetchWord a s ≠ .fault r := by
  unfold fetchWord
  split_ifs <;> nofun

theorem execTrap_ne_fault {s : State} (himage : s.params.trapModel = .image) (v : BitVec 8) (r : Fault) :
    execTrap v s ≠ .fault r := by
  unfold execTrap
  rw [himage]
  split
  · nofun
  · exact trapEntry_ne_fault v s r

/-- In image mode no instruction faults (60_exceptions.md R170). -/
theorem exec_ne_fault {s : State} (himage : s.params.trapModel = .image) (i : Instr) (r : Fault) :
    exec i s ≠ .fault r := by
  cases i with
  | ld | ldr => exact loadFrom_ne_fault _ _ _ r
  | ldi => exact andThen_ne_fault (memRead_ne_fault _) (fun _ => loadFrom_ne_fault _ _ _) r
  | st | str => exact memWrite_ne_fault _ _ r
  | sti => exact andThen_ne_fault (memRead_ne_fault _) (fun _ => memWrite_ne_fault _ _) r
  | rti => exact interruptReturn_ne_fault s r
  | trap v => exact execTrap_ne_fault himage v r
  | _ => exact next_ne_fault _ r

theorem runInstruction_ne_fault {s : State} (himage : s.params.trapModel = .image) (r : Fault) :
    runInstruction s ≠ .fault r := by
  refine andThen_ne_fault (fetchWord_ne_fault _ _) (fun w r => ?_) r
  split
  · nofun
  · exact exec_ne_fault (s := s.advancePc) himage _ r

theorem step_of_stopped (h : s.clockEnable = false) : step s = .fault .stopped := by
  simp [step, h]

/-- In image mode no step of a running machine is a fault. -/
theorem step_ne_fault_of_running (himage : s.params.trapModel = .image) (hrun : s.clockEnable = true) (r : Fault) :
    step s ≠ .fault r := by
  unfold step
  rw [if_pos hrun]
  split
  · exact runInstruction_ne_fault (by rw [agentsTurn_params, himage]) r
  · exact interruptEntry_ne_fault _ _ r

/-- Settles O44: a step of a running machine in image mode is no fault, so the clock is disabled where a step is one. -/
theorem stoppedExactlyWhenClockDisabled : Obligations.StoppedExactlyWhenClockDisabled := by
  refine ⟨fun s => step_of_stopped, fun s r himage h => ?_⟩
  have hstopped : s.clockEnable = false :=
    Bool.eq_false_iff.mpr fun hrun => step_ne_fault_of_running himage hrun r h
  rw [step_of_stopped hstopped] at h
  exact ⟨(Host.Outcome.fault.inj h).symm, hstopped⟩

/-! ### setcc -/

/-- setcc says the sign of the word (10_state.md R27). -/
theorem codesOf_setcc (v : Word) (s : State) : CodesOf v (s.setcc v) := by
  have hneg : v.msb = decide (v.toInt < 0) := BitVec.msb_eq_toInt
  have hzero : (v == 0) = decide (v.toInt = 0) := decide_eq_decide.mpr BitVec.toInt_inj.symm
  refine ⟨hneg, hzero, ?_⟩
  rw [State.setcc_p, bne, hneg, hzero, ← decide_not, ← decide_not, ← Bool.decide_and, decide_eq_decide]
  omega

/-- An integer is negative, zero or positive, and only one of them (10_state.md R28). -/
theorem exactlyOneCode_of_codesOf {v : Word} (h : CodesOf v t) : ExactlyOneCode t := by
  obtain ⟨hn, hz, hp⟩ := h
  rw [ExactlyOneCode, hn, hz, hp]
  simp only [decide_eq_true_eq, decide_eq_false_iff_not]
  omega

/-- Settles O39: setcc writes the sign of the word, of which exactly one holds, and nothing but the codes. -/
theorem setccDescribesWordOneHot : Obligations.SetccDescribesWordOneHot :=
  fun v s => ⟨codesOf_setcc v s, exactlyOneCode_of_codesOf (codesOf_setcc v s), fun _ _ => rfl, fun _ => rfl,
    ⟨⟨rfl, rfl, rfl⟩, ⟨rfl, rfl, rfl⟩, ⟨rfl, rfl⟩, rfl⟩, rfl⟩

/-! ### Which instruction writes what -/

/-- Settles O53: the seven end in a result written with setcc; a store leaves the codes, and so do the instructions that
write the PC, RTI excepted. -/
theorem codesWrittenOnlyByNamedInstructions : Obligations.CodesWrittenOnlyByNamedInstructions := by
  intro i s t himage h
  constructor
  · intro hsets
    obtain ⟨dr, u, v, hdr, -, rfl⟩ := exec_setsCodes_next hsets h
    have hcodes : CodesOf v (u.writeResult dr v) := codesOf_setcc v (u.writeReg dr v)
    refine ⟨exactlyOneCode_of_codesOf hcodes, fun r hr => ?_⟩
    rw [hdr, List.mem_singleton] at hr
    rwa [hr, State.readReg_writeResult, if_pos rfl]
  · intro hsets hrti
    by_cases hpc : writesPc i = true
    · obtain ⟨u, target, hu | ⟨-, hu⟩, rfl⟩ := exec_writesPc_next hpc hrti himage h
      · exact hu.sameCodes
      · exact hu.sameCodes
    · have hstore : isStore i = true :=
        (setsCodes_or_isStore (Bool.eq_false_iff.mpr hpc)).resolve_left (by simp [hsets])
      obtain ⟨-, hcodes, -⟩ := exec_isStore_processor hstore h
      exact hcodes

/-- Settles O54: the others end in a result written to a register or in a store, which leave the PC. -/
theorem pcWrittenOnlyByControlInstructions : Obligations.PcWrittenOnlyByControlInstructions := by
  intro i s t h hpc
  rcases setsCodes_or_isStore hpc with hsets | hstore
  · obtain ⟨dr, u, v, -, hu, rfl⟩ := exec_setsCodes_next hsets h
    exact hu.pc
  · obtain ⟨-, -, hpc⟩ := exec_isStore_processor hstore h
    exact hpc

/-- Settles O55: a register outside the list is neither the DR of a result, nor the link, nor RTI's R6, and no device
touches a register. -/
theorem registersWrittenOnlyAsNamed : Obligations.RegistersWrittenOnlyAsNamed := by
  intro i s t himage h q hq
  by_cases hpc : writesPc i = true
  · by_cases hrti : i = .rti
    · subst hrti
      obtain ⟨u, a, b, c, x, target, hu, rfl⟩ := interruptReturn_next h
      have hne : q ≠ regSP := List.ne_of_not_mem_cons hq
      rw [State.readReg_setPc, State.readReg_writeReg_ne _ _ _ _ hne, State.readReg_setFlags, hu.readReg]
    · obtain ⟨u, target, hu | ⟨hlink, hu⟩, rfl⟩ := exec_writesPc_next hpc hrti himage h
      · exact hu.readReg q
      · have hne : q ≠ regLink := by simpa [hlink] using hq
        rw [State.readReg_setPc, hu.readReg, State.readReg_link, if_neg hne]
  · rcases setsCodes_or_isStore (Bool.eq_false_iff.mpr hpc) with hsets | hstore
    · obtain ⟨dr, u, v, hdr, hu, rfl⟩ := exec_setsCodes_next hsets h
      have hne : q ≠ dr := by simpa [hdr] using hq
      rw [State.readReg_writeResult, if_neg hne, hu.readReg]
    · obtain ⟨hregs, -, -⟩ := exec_isStore_processor hstore h
      exact hregs q List.not_mem_nil

/-! ### The step as the decoded instruction -/

/-- A step with no request to take runs the instruction decoded at the PC (10_state.md R24). -/
theorem step_eq_exec (hrun : s.clockEnable = true) (hnone : takeRequest (agentsTurn s) = none)
    (hmem : isMemory s s.pc = true) (hi : decode (s.mem.read s.pc.toNat) = some i) :
    step s = exec i (agentsTurn s).advancePc := by
  have hfetch : fetchWord (agentsTurn s).pc (agentsTurn s) = .next (s.mem.read s.pc.toNat) :=
    (fetchWord_agentsTurn s).trans (fetchWord_eq_next.mpr ⟨hmem, rfl⟩)
  simp only [step, if_pos hrun, hnone, runInstruction, hfetch, andThen_nextOf, hi]

/-- Settles O42: the agents' turn leaves the PC and the word fetched there. -/
theorem stepRunsDecodedInstruction : Obligations.StepRunsDecodedInstruction :=
  fun s _ hrun hnone hmem hi =>
    ⟨step_eq_exec hrun hnone hmem hi, congrArg (· + 1) (agentsTurn_pc s)⟩

/-- Settles O48: the placed word is read back at the PC, and no interrupt source is left. -/
theorem placedWordRunsNext : Obligations.PlacedWordRunsNext := by
  intro s w i hmem hi hw
  refine step_eq_exec rfl (takeRequest_agentsTurn_of_no_sources rfl rfl) hmem ?_
  simpa [State.withFetchWord, Nat.mod_eq_of_lt hw] using hi

/-! ### Device registers -/

/-- Settles O34: the five addresses of Table A.1, compared as numbers. -/
theorem deviceRegistersAreTableA1 : Obligations.DeviceRegistersAreTableA1 := by
  intro a
  simp [isDevice, crtsrAddr, crtdrAddr, kbsrAddr, kbdrAddr, mcrAddr, BitVec.toNat_eq, or_assoc]

end Sys2Proof.Proofs.StateRules
end

section
/-! PROOFS about memory and the devices beside it: MemRead (O32), MemWrite (O33), the fetch (O35) and a store before it
(O36), what the other agents touch before a step (O45) and between two accesses (O46), and which instructions write
memory, the screen and the clock enable bit (O56). -/

namespace Sys2Proof.Proofs.NextState

open Sys2Proof Sys2Proof.Machine

variable {s u : State}

/-! ### What a read and the devices' turn leave -/

theorem DevicesMoved.processor (h : DevicesMoved s u) : SameRegsExcept [] s u ∧ SameCodes s u ∧ u.pc = s.pc :=
  ⟨fun q _ => h.readReg q, h.sameCodes, h.pc⟩

/-- Neither a read nor a device writes memory, the screen or the clock enable bit (20_memory.md R59, R65). -/
theorem DevicesMoved.outside (h : DevicesMoved s u) :
    SameMemory s u ∧ u.output = s.output ∧ u.clockEnable = s.clockEnable := by
  obtain ⟨k, c, r, d, i, rfl⟩ := h
  exact ⟨fun _ => rfl, rfl, rfl⟩

theorem DevicesMoved.crtData (h : DevicesMoved s u) : u.crtData = s.crtData := by
  obtain ⟨k, c, r, d, i, rfl⟩ := h
  rfl

theorem DevicesMoved.sameRequests (h : DevicesMoved s u) : SameRequests s u := by
  obtain ⟨k, c, r, d, i, rfl⟩ := h
  exact ⟨rfl, rfl⟩

theorem devicesMoved_deviceTurn (s : State) : DevicesMoved s (deviceTurn s) := deviceTurn_eq

end Sys2Proof.Proofs.NextState

namespace Sys2Proof.Proofs.MemoryRules

open Sys2Proof Sys2Proof.Machine Sys2Proof.Proofs.NextState

variable {s t : State}

/-! ### MemRead -/

/-- A read of KBDR clears KBSR[15], any other read changes nothing outside the processor (20_memory.md R65). -/
theorem readEffect_of_memRead {a : Word} {r : Word × State} (h : memRead a s = .next r) : ReadEffect s a r.2 := by
  obtain ⟨-, -, k, hk⟩ := memRead_next h
  rw [hk]
  exact ⟨rfl, rfl, rfl, ⟨rfl, rfl, rfl⟩, ⟨rfl, rfl⟩, rfl, fun _ => rfl⟩

/-- Settles O32: a read completes exactly where the address can be read; its value and effect are what every completed
read has. -/
theorem memReadByAddress : Obligations.MemReadByAddress := by
  refine fun a s => ⟨fun hcan => ?_, memRead_of_not_canRead⟩
  obtain ⟨⟨w, t⟩, hread⟩ := memRead_of_canRead hcan
  obtain ⟨-, hvalue, -⟩ := memRead_next hread
  exact ⟨w, t, hread, hvalue, readEffect_of_memRead hread, (devicesMoved_memRead hread).processor⟩

/-! ### MemWrite -/

/-- A store to a memory location replaces the word there (20_memory.md R54). -/
theorem memWrite_memory {a : Word} (v : Word) (h : isMemory s a = true) : memWrite a v s = .next (s.writeMem a v) := by
  obtain ⟨hdevice, hextra⟩ := isMemory_iff.mp h
  obtain ⟨h1, h2, h3, h4, h5⟩ := isDevice_eq_false.mp hdevice
  simp [memWrite, h1, h2, h3, h4, h5, hextra]

theorem memWrite_crtdr_of_not_ready (v : Word) (h : s.crtReady = false) :
    memWrite crtdrAddr v s = .refused .displayNotReady := by
  simp [memWrite, h]

theorem memWrite_readOnlyRegister {a : Word} (v : Word) (s : State)
    (h : a = crtsrAddr ∨ a = kbsrAddr ∨ a = kbdrAddr) :
    memWrite a v s = .refused (.storeToDeviceRegister a) := by
  rcases h with rfl | rfl | rfl <;> rfl

theorem memWrite_ioExtra {a : Word} (v : Word) (hdevice : isDevice a = false) (hextra : a ∈ s.params.ioExtra) :
    memWrite a v s = .refused (.ioExtraAccess a) := by
  obtain ⟨h1, h2, h3, h4, h5⟩ := isDevice_eq_false.mp hdevice
  simp [memWrite, h1, h2, h3, h4, h5, hextra]

/-- What a completed store changes outside the processor, for each of the three updates it can be (20_memory.md R54). -/
theorem storeEffect_of_memWrite {a v : Word} (h : memWrite a v s = .next t) : StoreEffect s a v t := by
  rcases memWrite_next h with ⟨rfl, -, rfl⟩ | ⟨rfl, rfl⟩ | ⟨hdevice, -, rfl⟩
  · have hbyte : lowByte v = v.extractLsb' 0 8 := BitVec.setWidth_eq_extractLsb' (by decide)
    refine ⟨⟨rfl, rfl, rfl⟩, ⟨rfl, rfl⟩, ?_⟩
    rw [if_pos rfl, ← hbyte]
    exact ⟨rfl, rfl, rfl, rfl, fun _ => rfl⟩
  · refine ⟨⟨rfl, rfl, rfl⟩, ⟨rfl, rfl⟩, ?_⟩
    rw [if_neg (by decide), if_pos rfl]
    exact ⟨BitVec.msb_eq_getLsbD_last v, ⟨rfl, rfl, rfl⟩, fun _ => rfl⟩
  · obtain ⟨-, hcrtdr, -, -, hmcr⟩ := isDevice_eq_false.mp hdevice
    refine ⟨⟨rfl, rfl, rfl⟩, ⟨rfl, rfl⟩, ?_⟩
    rw [if_neg hcrtdr, if_neg hmcr]
    exact ⟨Memory.read_write_same _ _ _, fun _ hb => Memory.read_write_ne _ _ hb, ⟨rfl, rfl, rfl⟩, rfl⟩

/-- Settles O33: a store completes where the address can be written, with the effect of every completed store; the
stores without a meaning are refused register by register. -/
theorem memWriteByAddress : Obligations.MemWriteByAddress := by
  refine fun a v s => ⟨fun hcan => ?_, ?_, memWrite_readOnlyRegister v s, memWrite_ioExtra v⟩
  · obtain ⟨t, hwrite⟩ := memWrite_of_canWrite v hcan
    exact ⟨t, hwrite, storeEffect_of_memWrite hwrite, memWrite_processor hwrite⟩
  · rintro rfl hbusy
    exact memWrite_crtdr_of_not_ready v hbusy

/-! ### The fetch -/

theorem fetchWord_device {a : Word} (h : isDevice a = true) : fetchWord a s = .refused (.fetchFromDevice a) :=
  if_pos h

theorem fetchWord_ioExtra {a : Word} (hdevice : isDevice a = false) (hextra : a ∈ s.params.ioExtra) :
    fetchWord a s = .refused (.ioExtraAccess a) := by
  simp [fetchWord, hdevice, hextra]

/-- Settles O35: the three answers of the fetch. -/
theorem fetchReadsMemoryOnly : Obligations.FetchReadsMemoryOnly :=
  fun _ _ => ⟨fun hmem => fetchWord_eq_next.mpr ⟨hmem, rfl⟩, fetchWord_device, fetchWord_ioExtra⟩

/-- A write to memory changes no fetch from another address (20_memory.md R60). -/
theorem fetchWord_writeMem_ne {a b : Word} (v : Word) (h : b ≠ a) : fetchWord b (s.writeMem a v) = fetchWord b s := by
  have haddr : b.toNat ≠ a.toNat := mt BitVec.eq_of_toNat_eq h
  simp [fetchWord, haddr]

/-- Settles O36: the store is the write of one word, which the fetch reads back. -/
theorem storeIsSeenByNextFetch : Obligations.StoreIsSeenByNextFetch :=
  fun _ v _ hmem => ⟨_, memWrite_memory v hmem, fetchWord_eq_next.mpr ⟨hmem, Memory.read_write_same _ _ _⟩,
    fun _ hb => fetchWord_writeMem_ne v hb⟩

/-! ### The devices' own steps -/

/-- In the keyboard's step nothing happens, or the next character arrives where none was waiting
(60_exceptions.md R181). -/
theorem keyboardTurn_keyboard (s : State) : SameKeyboard s (keyboardTurn s) ∨ KeyArrives s (keyboardTurn s) := by
  unfold keyboardTurn
  split
  · exact .inl ⟨rfl, rfl, rfl⟩
  · next r hnext =>
    split
    · exact .inl ⟨rfl, rfl, rfl⟩
    · next hready =>
      split
      · exact .inr ⟨Bool.eq_false_iff.mpr hready, rfl, hnext⟩
      · exact .inl ⟨rfl, rfl, rfl⟩

/-- The display's step leaves the keyboard. -/
theorem displayTurn_keyboard (s : State) : SameKeyboard s (displayTurn s) := by
  obtain ⟨k, c, h⟩ := displayTurn_eq (s := s)
  rw [h]
  exact ⟨rfl, rfl, rfl⟩

/-- At most the next character arrives in the devices' turn, and only while none is waiting (60_exceptions.md R181). -/
theorem deviceTurn_keyboard (s : State) : SameKeyboard s (deviceTurn s) ∨ KeyArrives s (deviceTurn s) := by
  obtain ⟨hready, hdata, hinput⟩ := displayTurn_keyboard (keyboardTurn s)
  simp only [SameKeyboard, KeyArrives, deviceTurn, hready, hdata, hinput]
  exact keyboardTurn_keyboard s

/-- A display that is ready stays ready in the devices' turn (60_exceptions.md R183). -/
theorem deviceTurn_crtReady (h : s.crtReady = true) : (deviceTurn s).crtReady = true := by
  obtain ⟨k, r, d, i, hkeyboard⟩ := keyboardTurn_eq (s := s)
  have hready : (keyboardTurn s).crtReady = true := by rwa [hkeyboard]
  rw [deviceTurn, displayTurn, if_pos hready]
  exact hready

/-! ### Between two accesses -/

theorem betweenAccesses_device {a : Word} (h : isDevice a = true) (s : State) : betweenAccesses a s = deviceTurn s :=
  if_pos h

/-- Settles O46: the devices' turn after an access to a device register, nothing after one to memory. -/
theorem devicesBetweenAccessesTouchOnlyTheirOwn : Obligations.DevicesBetweenAccessesTouchOnlyTheirOwn := by
  intro a s
  have hmoved : DevicesMoved s (betweenAccesses a s) := devicesMoved_betweenAccesses a s
  obtain ⟨hregs, hcodes, hpc⟩ := hmoved.processor
  obtain ⟨hmem, hout, hclock⟩ := hmoved.outside
  refine ⟨betweenAccesses_memory, hregs, hcodes, hmem, hmoved.sameRequests, hpc, hout, hmoved.crtData, hclock, ?_⟩
  cases hdevice : isDevice a with
  | false =>
    rw [betweenAccesses_memory hdevice]
    exact ⟨.inl ⟨rfl, rfl, rfl⟩, id⟩
  | true =>
    rw [betweenAccesses_device hdevice]
    exact ⟨deviceTurn_keyboard s, deviceTurn_crtReady⟩

/-! ### Before a step -/

/-- What `requestTurn_eq` says, with where the added requests come from: each is of a source of the list
(60_exceptions.md R175). -/
theorem requestTurn_adds (l : List InterruptSource) (s : State) :
    ∃ k q, requestTurn l s = { s.drawn k with pending := s.pending ++ q } ∧ ∀ i ∈ q, i ∈ l := by
  induction l generalizing s with
  | nil => exact ⟨0, [], by simp [requestTurn, State.drawn], by simp⟩
  | cons i rest ih =>
    unfold requestTurn
    split
    · obtain ⟨k, q, h, hq⟩ := ih s
      exact ⟨k, q, h, fun j hj => List.mem_cons_of_mem i (hq j hj)⟩
    split
    · obtain ⟨k, q, h, hq⟩ := ih { s.drawn 1 with pending := s.pending ++ [i] }
      exact ⟨1 + k, i :: q, by rw [h]; simp [State.drawn, Nat.add_assoc], List.forall_mem_cons.mpr
        ⟨List.mem_cons_self, fun j hj => List.mem_cons_of_mem i (hq j hj)⟩⟩
    · obtain ⟨k, q, h, hq⟩ := ih (s.drawn 1)
      exact ⟨1 + k, q, by rw [h]; simp [State.drawn, Nat.add_assoc], fun j hj => List.mem_cons_of_mem i (hq j hj)⟩

/-- The agents' turn is the devices' turn with requests of configured sources added (20_memory.md R59). -/
theorem agentsTurn_eq_deviceTurn (s : State) : ∃ k q,
    agentsTurn s = { (deviceTurn s).drawn k with pending := s.pending ++ q } ∧
      ∀ i ∈ q, i ∈ s.params.interruptSources := by
  obtain ⟨hpending, -⟩ := (devicesMoved_deviceTurn s).sameRequests
  obtain ⟨k, q, hrequests, hq⟩ := requestTurn_adds s.params.interruptSources (deviceTurn s)
  exact ⟨k, q, by rw [agentsTurn, hrequests, hpending], hq⟩

/-- Settles O45: the devices' turn moves the devices, and the requests added to it touch nothing else. -/
theorem agentsTouchOnlyTheirOwn : Obligations.AgentsTouchOnlyTheirOwn := by
  intro s
  have hmoved : DevicesMoved s (deviceTurn s) := devicesMoved_deviceTurn s
  obtain ⟨hregs, hcodes, hpc⟩ := hmoved.processor
  obtain ⟨hmem, hout, hclock⟩ := hmoved.outside
  obtain ⟨-, hparams⟩ := hmoved.sameRequests
  obtain ⟨k, q, h, hq⟩ := agentsTurn_eq_deviceTurn s
  rw [h]
  exact ⟨hregs, hcodes, hmem, hpc, hout, hmoved.crtData, hclock, hparams, deviceTurn_keyboard s, deviceTurn_crtReady,
    q, rfl, hq⟩

/-! ### Which instructions write outside the processor -/

/-- Settles O56: an instruction that is no store reads, lets the devices move, and writes registers, codes and
the PC. -/
theorem onlyStoresWriteOutside : Obligations.OnlyStoresWriteOutside := by
  intro i s t himage h hstore
  by_cases hpc : writesPc i = true
  · by_cases hrti : i = .rti
    · subst hrti
      obtain ⟨u, a, b, c, x, target, hu, rfl⟩ := interruptReturn_next h
      exact hu.outside
    · obtain ⟨u, target, hu | ⟨-, hu⟩, rfl⟩ := exec_writesPc_next hpc hrti himage h
      · exact hu.outside
      · exact hu.outside
  · have hsets : setsCodes i = true :=
      (setsCodes_or_isStore (Bool.eq_false_iff.mpr hpc)).resolve_right (by simp [hstore])
    obtain ⟨dr, u, v, -, hu, rfl⟩ := exec_setsCodes_next hsets h
    exact hu.outside

end Sys2Proof.Proofs.MemoryRules
end

section
/-! PROOFS of the encoding (30_encoding.md): the decoder and the encoder are inverse to each other (O1, O2), the words
that decode to nothing (O4), the spec's example words (O3) and the page of a page address (O38). -/

namespace Sys2Proof.Proofs.Encoding

open Sys2Proof Sys2Proof.Machine

variable {w : Word} {r : OpcodeRow} {s : State}

/-! ### A field and its place in a word -/

/-- The bits of a word that a field of `n` bits at bit `lo` takes. -/
def fieldMask (lo n : Nat) : Word := place (BitVec.allOnes n) lo

theorem getLsbD_place {n : Nat} (v : BitVec n) (lo i : Nat) :
    (place v lo).getLsbD i = (decide (i < 16) && decide (lo ≤ i) && v.getLsbD (i - lo)) := by
  rw [place, BitVec.getLsbD_shiftLeft, BitVec.getLsbD_setWidth]
  by_cases hi : i < 16
  · simp [hi, Nat.lt_of_le_of_lt (Nat.sub_le i lo) hi, ← decide_not]
  · simp [hi]

/-- A field is read back from its own place. -/
theorem extractLsb'_place {n lo : Nat} (v : BitVec n) (h : lo + n ≤ 16) : (place v lo).extractLsb' lo n = v := by
  apply BitVec.eq_of_getLsbD_eq
  intro i hi
  have hword : lo + i < 16 := by omega
  rw [BitVec.getLsbD_extractLsb', getLsbD_place]
  simp [hi, hword]

/-- A field reads zeros from the place of another. -/
theorem extractLsb'_place_of_disjoint {n lo s l : Nat} (v : BitVec n) (h : s + l ≤ lo ∨ lo + n ≤ s) :
    (place v lo).extractLsb' s l = 0 := by
  apply BitVec.eq_of_getLsbD_eq
  intro i hi
  have hv : lo ≤ s + i → v.getLsbD (s + i - lo) = false := fun _ => BitVec.getLsbD_of_ge _ _ (by omega)
  simpa [BitVec.getLsbD_extractLsb', getLsbD_place, hi] using fun _ => hv

/-- A word's field, placed where it was read, is the word's bits under the field's mask. -/
theorem place_extractLsb' (w : Word) (lo n : Nat) : place (w.extractLsb' lo n) lo = w &&& fieldMask lo n := by
  apply BitVec.eq_of_getLsbD_eq
  intro i hi
  rw [fieldMask, BitVec.getLsbD_and, getLsbD_place, getLsbD_place, BitVec.getLsbD_extractLsb', BitVec.getLsbD_allOnes]
  by_cases hlo : lo ≤ i
  · simp [hi, hlo, Bool.and_comm]
  · simp [hlo]

theorem extractLsb'_and_fieldMask (w : Word) (lo n : Nat) :
    (w &&& fieldMask lo n).extractLsb' lo n = w.extractLsb' lo n := by
  apply BitVec.eq_of_getLsbD_eq
  intro i hi
  simpa [fieldMask, getLsbD_place, hi] using fun h => BitVec.lt_of_getLsbD h

/-- Two words agree under a field's mask exactly when the field has the same value in both. -/
theorem and_fieldMask_eq_iff {p : Word} {lo n : Nat} :
    w &&& fieldMask lo n = p &&& fieldMask lo n ↔ w.extractLsb' lo n = p.extractLsb' lo n := by
  constructor
  · intro h
    rw [← extractLsb'_and_fieldMask w, h, extractLsb'_and_fieldMask]
  · intro h
    rw [← place_extractLsb', h, place_extractLsb']

theorem ofBool_beq_one (b : Bool) : (BitVec.ofBool b == 1#1) = b := by cases b <;> rfl

theorem ofBool_getLsbD (w : Word) (i : Nat) : BitVec.ofBool (w.getLsbD i) = w.extractLsb' i 1 := by
  rw [BitVec.getLsbD_eq_extractLsb']
  generalize w.extractLsb' i 1 = b
  decide +revert

/-! ### The decoder and the encoder -/

/-- Some row of the table reads an instruction's operands back from its word. -/
theorem exists_row_build_encode (i : Instr) : ∃ r ∈ opcodeRows, r.build (encode i) = i := by
  cases i
  all_goals
    -- The one row that builds the constructor is left, with an equation for each operand.
    simp only [opcodeRows, List.mem_cons, exists_eq_or_imp, reduceCtorEq, false_or]
    simp [encode, placeBit, fieldDR, fieldSR1, fieldSR2, fieldImm5, fieldIndex6, fieldPgoffset9, fieldTrapvect8,
      BitVec.getElem_eq_extractLsb', BitVec.extractLsb'_or, extractLsb'_place, extractLsb'_place_of_disjoint,
      ofBool_beq_one]

/-- The instruction a row reads from a word is encoded with the row's fixed bits and the word's other bits: together the
operands are all that the mask leaves free (30_encoding.md R82, R83). -/
theorem encode_build : ∀ r ∈ opcodeRows, ∀ w, encode (r.build w) = r.pattern ||| (w &&& ~~~r.mask) := by
  simp only [opcodeRows, List.forall_mem_cons]
  and_intros
  all_goals
    simp only [encode, placeBit, fieldDR, fieldSR1, fieldSR2, fieldImm5, fieldIndex6, fieldPgoffset9, fieldTrapvect8,
      ofBool_getLsbD, place_extractLsb', BitVec.or_assoc, ← BitVec.and_or_distrib_left]
    simp [fieldMask, place]

theorem pattern_and_mask : ∀ r ∈ opcodeRows, r.pattern &&& r.mask = r.pattern := by
  simp only [opcodeRows]
  decide

/-- The words a row fits are the words of the instructions it builds. -/
theorem fits_iff_encode_build (hr : r ∈ opcodeRows) : r.fits w = true ↔ encode (r.build w) = w := by
  rw [encode_build r hr, OpcodeRow.fits, beq_iff_eq]
  constructor
  · intro h
    rw [← h, ← BitVec.and_or_distrib_left, BitVec.or_not_self, BitVec.and_allOnes]
  · intro h
    rw [← h, BitVec.and_or_distrib_right, BitVec.and_assoc, BitVec.not_and_self, pattern_and_mask r hr]
    simp

/-- Settles O1: a row reads the instruction back from its word, and so fits the word. -/
theorem decodeReturnsEncodedInstruction : Obligations.DecodeReturnsEncodedInstruction := by
  intro i
  obtain ⟨r, hr, hbuild⟩ := exists_row_build_encode i
  have hfits : r.fits (encode i) = true := (fits_iff_encode_build hr).mpr (congrArg encode hbuild)
  rw [decode_of_fits hr hfits, hbuild]

/-- Settles O2: the row a word decodes by fits the word. -/
theorem encodeReturnsDecodedWord : Obligations.EncodeReturnsDecodedWord := by
  intro w i h
  obtain ⟨r, hr, hfits, rfl⟩ := decode_eq_some h
  exact (fits_iff_encode_build hr).mp hfits

/-- A word decodes by a row exactly when it has the row's fixed bits (30_encoding.md R83). -/
theorem decode_eq_build_iff (hr : r ∈ opcodeRows) : decode w = some (r.build w) ↔ r.fits w = true :=
  ⟨fun h => (fits_iff_encode_build hr).mpr (encodeReturnsDecodedWord w _ h), decode_of_fits hr⟩

/-- Settles O3: the table, looked up for twenty words. -/
theorem specExampleWordsDecode : Obligations.SpecExampleWordsDecode := by
  unfold Obligations.SpecExampleWordsDecode
  decide

/-! ### The words without a meaning -/

/-- The bits of several fields, each given by its lowest bit and its length. -/
def fieldsMask (fs : List (Nat × Nat)) : Word := fs.foldr (fun f m => fieldMask f.1 f.2 ||| m) 0

theorem and_or_eq_iff {p a b : Word} :
    w &&& (a ||| b) = p &&& (a ||| b) ↔ w &&& a = p &&& a ∧ w &&& b = p &&& b := by
  constructor
  · intro h
    have under : ∀ m, (a ||| b) &&& m = m → w &&& m = p &&& m := fun m hm => by
      rw [← hm, ← BitVec.and_assoc, h, BitVec.and_assoc]
    exact ⟨under a (by grind), under b (by grind)⟩
  · rintro ⟨ha, hb⟩
    rw [BitVec.and_or_distrib_left, ha, hb, ← BitVec.and_or_distrib_left]

theorem and_fieldsMask_eq_iff {p : Word} (fs : List (Nat × Nat)) :
    w &&& fieldsMask fs = p &&& fieldsMask fs ↔ ∀ f ∈ fs, w.extractLsb' f.1 f.2 = p.extractLsb' f.1 f.2 := by
  induction fs with
  | nil => simp [fieldsMask]
  | cons f fs ih =>
    rw [List.forall_mem_cons, ← ih, ← and_fieldMask_eq_iff]
    exact and_or_eq_iff

/-- The fields that the rows with a mask fix: the opcode first, then the fixed bits of Figure A.1
(30_encoding.md R82). -/
def fixedFields (mask : Word) : List (Nat × Nat) :=
  (12, 4) ::
    if mask = 0xF038 then [(5, 1), (3, 2)]
    else if mask = 0xF020 then [(5, 1)]
    else if mask = 0xFE00 then [(11, 1), (9, 2)]
    else if mask = 0xF03F then [(0, 6)]
    else if mask = 0xFFFF then [(0, 12)]
    else if mask = 0xFF00 then [(8, 4)]
    else []

theorem mask_eq_fieldsMask : ∀ r ∈ opcodeRows, r.mask = fieldsMask (fixedFields r.mask) := by
  simp only [opcodeRows]
  decide

/-- A row fits the words that agree with its pattern in each of its fixed fields. -/
theorem fits_iff_fixedFields (hr : r ∈ opcodeRows) : r.fits w = true ↔
    ∀ f ∈ fixedFields r.mask, w.extractLsb' f.1 f.2 = r.pattern.extractLsb' f.1 f.2 := by
  rw [OpcodeRow.fits, beq_iff_eq, ← and_fieldsMask_eq_iff, ← mask_eq_fieldsMask r hr, pattern_and_mask r hr]

theorem decode_eq_none_iff_fixedFields : decode w = none ↔ ∀ r ∈ opcodeRows,
    ¬∀ f ∈ fixedFields r.mask, w.extractLsb' f.1 f.2 = r.pattern.extractLsb' f.1 f.2 := by
  rw [decode_eq_none]
  exact forall₂_congr fun r hr => by rw [← fits_iff_fixedFields hr, Bool.not_eq_true]

theorem opcode_cases (o : BitVec 4) :
    o = 0x0 ∨ o = 0x1 ∨ o = 0x2 ∨ o = 0x3 ∨ o = 0x4 ∨ o = 0x5 ∨ o = 0x6 ∨ o = 0x7 ∨
    o = 0x8 ∨ o = 0x9 ∨ o = 0xA ∨ o = 0xB ∨ o = 0xC ∨ o = 0xD ∨ o = 0xE ∨ o = 0xF := by
  decide +revert

theorem bit_eq_zero_iff (b : BitVec 1) : b = 0#1 ↔ ¬b = 1#1 := by
  decide +revert

/-- A fetched word that decodes to nothing refuses the step (30_encoding.md R92). -/
theorem step_of_decode_eq_none (hrun : s.clockEnable = true) (hnone : takeRequest (agentsTurn s) = none)
    (hmem : isMemory s s.pc = true) (hw : decode (s.mem.read s.pc.toNat) = none) :
    step s = .refused (.undefinedWord (s.mem.read s.pc.toNat)) := by
  have hfetch : fetchWord (agentsTurn s).pc (agentsTurn s) = .next (s.mem.read s.pc.toNat) :=
    (NextState.fetchWord_agentsTurn s).trans (fetchWord_eq_next.mpr ⟨hmem, rfl⟩)
  simp only [step, if_pos hrun, hnone, runInstruction, hfetch, andThen_nextOf, hw]

/-- Settles O4: opcode by opcode, the fixed fields of the opcode's rows are the ones the statement names. -/
theorem wrongFixedBitsAreUndefined : Obligations.WrongFixedBitsAreUndefined := by
  refine ⟨fun w => ?_, fun s => step_of_decode_eq_none⟩
  rw [decode_eq_none_iff_fixedFields, BitVec.getLsbD_eq_extractLsb']
  simp only [opcodeRows, fixedFields, List.forall_mem_cons, BitVec.ofNat_eq_ofNat, BitVec.reduceEq,
    BitVec.reduceExtractLsb', ↓reduceIte, List.not_mem_nil, not_and, ne_eq, bit_eq_zero_iff,
    beq_eq_false_iff_ne]
  rcases opcode_cases (w.extractLsb' 12 4) with h | h | h | h | h | h | h | h | h | h | h | h | h | h | h | h
  all_goals simp [h]
  -- ADD and AND: bit 5 tells the two rows of the opcode apart, and only one of them fixes bits [4:3].
  · tauto
  · tauto

/-! ### The page address -/

/-- The page address has the page of the PC above the nine bits (30_encoding.md R88). -/
theorem pgaddr_eq_append (pc : Word) (off9 : BitVec 9) : pgaddr pc off9 = pc.extractLsb' 9 7 ++ off9 := by
  have hpc : pc.extractLsb' 9 7 ++ pc.extractLsb' 0 9 = pc := by
    rw [BitVec.extractLsb'_append_extractLsb'_eq_extractLsb' (by rfl)]
    exact BitVec.extractLsb'_eq_self
  calc pgaddr pc off9
    _ = (pc.extractLsb' 9 7 ++ pc.extractLsb' 0 9) &&& (BitVec.allOnes 7 ++ 0#9) ||| (0#7 ++ off9) := by
        rw [hpc, pgaddr, BitVec.setWidth_eq_append (by decide)]
        rfl
    _ = pc.extractLsb' 9 7 ++ off9 := by
        rw [BitVec.and_append, BitVec.or_append, BitVec.and_allOnes, BitVec.and_zero, BitVec.or_zero, BitVec.zero_or]

theorem toNat_page (a : Word) : (a.extractLsb' 9 7).toNat = a.toNat / 512 := by
  rw [BitVec.extractLsb'_toNat, Nat.shiftRight_eq_div_pow]
  omega

theorem toNat_pageOffset (a : Word) : (a.extractLsb' 0 9).toNat = a.toNat % 512 := by
  rw [BitVec.extractLsb'_toNat, Nat.shiftRight_zero]

theorem page_add_one_of_not_last {a : Word} (h : a.extractLsb' 0 9 ≠ 0x1FF#9) :
    (a + 1).extractLsb' 9 7 = a.extractLsb' 9 7 := by
  rw [ne_eq, BitVec.toNat_eq, toNat_pageOffset] at h
  rw [BitVec.toNat_eq, toNat_page, toNat_page, BitVec.toNat_add]
  bv_omega

theorem page_add_one_of_last {a : Word} (h : a.extractLsb' 0 9 = 0x1FF#9) :
    (a + 1).extractLsb' 9 7 = a.extractLsb' 9 7 + 1 := by
  rw [BitVec.toNat_eq, toNat_pageOffset] at h
  rw [BitVec.toNat_eq, toNat_page, BitVec.toNat_add, BitVec.toNat_add, toNat_page]
  bv_omega

/-- Settles O38: the page is the incremented PC's, which is `a`'s but after the last word of a page. -/
theorem pageAddressUsesIncrementedPc : Obligations.PageAddressUsesIncrementedPc := by
  intro a off9
  have hpage : (pgaddr (a + 1) off9).extractLsb' 9 7 = (a + 1).extractLsb' 9 7 := by
    rw [pgaddr_eq_append, BitVec.extractLsb'_append_eq_left]
  rw [hpage]
  exact ⟨pgaddr_eq_append (a + 1) off9, page_add_one_of_not_last, page_add_one_of_last⟩

end Sys2Proof.Proofs.Encoding
end

section
/-! PROOFS of the operate instructions ADD, AND and NOT (40_operate.md; O5 to O9): the words of each are those of one
row of the opcode table, and each writes one result with its codes. -/

namespace Sys2Proof.Proofs.Encoding

open Sys2Proof Sys2Proof.Machine

/-- Row `k` of the opcode table, counted from 0, gives the meaning of exactly the words that match its fixed bits
(30_encoding.md R83). -/
theorem decode_eq_row_iff (k : Fin 20) (w : Word) :
    decode w = some ((opcodeRows.get k).build w) ↔ w &&& (opcodeRows.get k).mask = (opcodeRows.get k).pattern :=
  (decode_eq_build_iff (opcodeRows.get_mem k)).trans beq_iff_eq

end Sys2Proof.Proofs.Encoding

namespace Sys2Proof.Proofs.Operate

open Sys2Proof Sys2Proof.Machine Sys2Proof.Proofs.Encoding Sys2Proof.Proofs.StateRules

/-! ### A result written to DR -/

@[simp] theorem readReg_writeResult_same (dr : Reg) (v : Word) (s : State) : (s.writeResult dr v).readReg dr = v :=
  State.readReg_writeReg_same s dr v

/-- A written result has its own codes, and nothing but DR and the codes changes (10_state.md R26, R27). -/
theorem writeResult_codes_and_frame (dr : Reg) (v : Word) (s : State) :
    CodesOf ((s.writeResult dr v).readReg dr) (s.writeResult dr v) ∧ SameRegsExcept [dr] s (s.writeResult dr v) ∧
      (s.writeResult dr v).pc = s.pc ∧ SameMemory s (s.writeResult dr v) ∧ SameDevices s (s.writeResult dr v) := by
  refine ⟨?codes, fun q hq => ?reg, rfl, fun _ => rfl, ⟨rfl, rfl, rfl⟩, ⟨rfl, rfl, rfl⟩, ⟨rfl, rfl⟩, rfl⟩
  case codes =>
    rw [readReg_writeResult_same]
    exact codesOf_setcc v (s.writeReg dr v)
  case reg =>
    rw [State.readReg_writeResult, if_neg (List.ne_of_not_mem_cons hq)]

/-! ### The immediate operand -/

theorem toInt_sext5 (imm5 : BitVec 5) : (sext5 imm5).toInt = imm5.toInt :=
  BitVec.toInt_signExtend_of_le (by decide)

/-- Adding the sign-extended immediate adds its two's complement value, modulo 2^16 (40_operate.md R111). -/
theorem toNat_add_sext5 (x : Word) (imm5 : BitVec 5) :
    ((x + sext5 imm5).toNat : Int) = (x.toNat + imm5.toInt) % 65536 := by
  rw [← toInt_sext5, BitVec.toInt_eq_toNat_bmod, BitVec.toNat_add, Int.natCast_emod, Int.natCast_add]
  exact Int.add_emod_eq_add_emod_left _ Int.bmod_emod.symm

/-- Bit 4 of the immediate fills the bits above it (30_encoding.md R86). -/
theorem getLsbD_sext5 (imm5 : BitVec 5) {i : Nat} (hi : i < 16) :
    (sext5 imm5).getLsbD i = if i < 5 then imm5.getLsbD i else imm5.getLsbD 4 := by
  rw [sext5, BitVec.getLsbD_signExtend, BitVec.msb_eq_getLsbD_last, decide_eq_true hi, Bool.true_and]

/-! ### The instructions -/

/-- Settles O5: the sum of two words is the sum of their values modulo 2^16. -/
theorem addRegisterWrapsAndSetsCodes : Obligations.AddRegisterWrapsAndSetsCodes := by
  refine ⟨decode_eq_row_iff 0, fun dr sr1 sr2 s =>
    ⟨s.writeResult dr (s.readReg sr1 + s.readReg sr2), rfl, ?_, writeResult_codes_and_frame dr _ s⟩⟩
  rw [readReg_writeResult_same]
  exact BitVec.toNat_add _ _

/-- Settles O6: the sign-extended immediate is added as the integer it stands for. -/
theorem addImmediateWrapsAndSetsCodes : Obligations.AddImmediateWrapsAndSetsCodes := by
  refine ⟨decode_eq_row_iff 1, fun dr sr1 imm5 s =>
    ⟨s.writeResult dr (s.readReg sr1 + sext5 imm5), rfl, ?_, writeResult_codes_and_frame dr _ s⟩⟩
  rw [readReg_writeResult_same]
  exact toNat_add_sext5 _ imm5

/-- Settles O7: a bit of the conjunction is the conjunction of the sources' bits. -/
theorem andRegisterIsBitwiseAndSetsCodes : Obligations.AndRegisterIsBitwiseAndSetsCodes := by
  refine ⟨decode_eq_row_iff 2, fun dr sr1 sr2 s =>
    ⟨s.writeResult dr (s.readReg sr1 &&& s.readReg sr2), rfl, fun i _ => ?_, writeResult_codes_and_frame dr _ s⟩⟩
  rw [readReg_writeResult_same]
  exact BitVec.getLsbD_and

/-- Settles O8: the mask's bits are the immediate's, with its bit 4 above them. -/
theorem andImmediateMasksSignExtended : Obligations.AndImmediateMasksSignExtended := by
  refine ⟨decode_eq_row_iff 3, fun dr sr1 imm5 s =>
    ⟨s.writeResult dr (s.readReg sr1 &&& sext5 imm5), rfl, fun i hi => ?_, writeResult_codes_and_frame dr _ s⟩⟩
  rw [readReg_writeResult_same, BitVec.getLsbD_and, getLsbD_sext5 imm5 hi]

/-- Settles O9: the complement of a word is xFFFF minus its value. -/
theorem notInvertsAndSetsCodes : Obligations.NotInvertsAndSetsCodes := by
  refine ⟨decode_eq_row_iff 13, fun dr sr s =>
    ⟨s.writeResult dr (~~~s.readReg sr), rfl, ?_, writeResult_codes_and_frame dr _ s⟩⟩
  rw [readReg_writeResult_same]
  exact BitVec.toNat_not

end Sys2Proof.Proofs.Operate
end

section
/-! PROOFS of the control instructions BR, JSR, JMP, JSRR, JMPR and RET (41_control.md; O10 to O15): each writes the PC,
JSR and JSRR also the link, and nothing else changes. -/

namespace Sys2Proof.Proofs.Control

open Sys2Proof Sys2Proof.Machine Sys2Proof.Proofs.Encoding

/-! ### The jump and the link -/

/-- A write of the PC changes nothing else. -/
theorem setPc_frame (target : Word) (s : State) : SameRegsExcept [] s (s.setPc target) ∧
    SameCodes s (s.setPc target) ∧ SameMemory s (s.setPc target) ∧ SameDevices s (s.setPc target) :=
  ⟨fun _ _ => rfl, ⟨rfl, rfl, rfl⟩, fun _ => rfl, ⟨rfl, rfl, rfl⟩, ⟨rfl, rfl, rfl⟩, ⟨rfl, rfl⟩, rfl⟩

/-- The link and a write of the PC change R7 and the PC only (41_control.md R121). -/
theorem link_setPc_frame (target : Word) (s : State) : SameRegsExcept [7] s (s.link.setPc target) ∧
    SameCodes s (s.link.setPc target) ∧ SameMemory s (s.link.setPc target) ∧ SameDevices s (s.link.setPc target) := by
  refine ⟨fun q hq => ?reg, ⟨rfl, rfl, rfl⟩, fun _ => rfl, ⟨rfl, rfl, rfl⟩, ⟨rfl, rfl, rfl⟩, ⟨rfl, rfl⟩, rfl⟩
  case reg =>
    rw [State.readReg_setPc, State.readReg_link, if_neg (show q ≠ regLink from List.ne_of_not_mem_cons hq)]

theorem readReg_link_setPc_same (target : Word) (s : State) : (s.link.setPc target).readReg 7 = s.pc :=
  State.readReg_writeReg_same s regLink s.pc

/-- The base+index address is the sum of the values modulo 2^16, the index unsigned (30_encoding.md R87). -/
theorem toNat_baseIndex (base : Word) (index6 : BitVec 6) :
    (baseIndex base index6).toNat = (base.toNat + index6.toNat) % 65536 := by
  rw [baseIndex, BitVec.toNat_add, zext6, BitVec.toNat_setWidth_of_le (by decide)]

/-! ### BR -/

section
variable {n z p : Bool} {s : State} (off9 : BitVec 9)

/-- BR with a tested code set jumps in the page (41_control.md R120). -/
theorem exec_br_of_tested (h : (n = true ∧ s.n = true) ∨ (z = true ∧ s.z = true) ∨ (p = true ∧ s.p = true)) :
    exec (.br n z p off9) s = .next (s.setPc (pgaddr s.pc off9)) :=
  congrArg Host.Outcome.next (if_pos (by simpa [or_assoc] using h))

/-- BR with no tested code set does nothing (41_control.md R120). -/
theorem exec_br_of_not_tested (h : ¬((n = true ∧ s.n = true) ∨ (z = true ∧ s.z = true) ∨ (p = true ∧ s.p = true))) :
    exec (.br n z p off9) s = .next s :=
  congrArg Host.Outcome.next (if_neg (by simpa [or_assoc] using h))

end

/-- Settles O10: a tested code is set or none is; a branch not taken leaves the state as it is. -/
theorem branchTakenOnTestedCode : Obligations.BranchTakenOnTestedCode := by
  refine ⟨decode_eq_row_iff 4, fun n z p off9 s => ?_⟩
  by_cases h : (n = true ∧ s.n = true) ∨ (z = true ∧ s.z = true) ∨ (p = true ∧ s.p = true)
  · exact ⟨s.setPc (pgaddr s.pc off9), exec_br_of_tested off9 h, fun _ => pgaddr_eq_append s.pc off9,
      fun hnot => absurd h hnot, setPc_frame _ s⟩
  · exact ⟨s, exec_br_of_not_tested off9 h, fun htested => absurd htested h, fun _ => rfl, setPc_frame s.pc s⟩

/-! ### Jumps in the page -/

/-- Settles O11: the link, then the jump in the page of the incremented PC. -/
theorem jsrLinksAndJumpsInPage : Obligations.JsrLinksAndJumpsInPage :=
  ⟨decode_eq_row_iff 5, fun off9 s => ⟨s.link.setPc (pgaddr s.pc off9), rfl, readReg_link_setPc_same _ s,
    pgaddr_eq_append s.pc off9, link_setPc_frame _ s⟩⟩

/-- Settles O12: the jump of JSR without the link. -/
theorem jmpJumpsInPageWithoutLink : Obligations.JmpJumpsInPageWithoutLink :=
  ⟨decode_eq_row_iff 6, fun off9 s => ⟨s.setPc (pgaddr s.pc off9), rfl, pgaddr_eq_append s.pc off9, setPc_frame _ s⟩⟩

/-! ### Jumps to a register -/

/-- Settles O13: the base is read after the link, so it is the link value if BaseR is R7. -/
theorem jsrrLinksBeforeReadingBase : Obligations.JsrrLinksBeforeReadingBase := by
  refine ⟨decode_eq_row_iff 7, fun baseR index6 s => ⟨s.link.setPc (baseIndex (s.link.readReg baseR) index6), rfl,
    readReg_link_setPc_same _ s, ?_, link_setPc_frame _ s⟩⟩
  have hbase : s.link.readReg baseR = if baseR = 7 then s.pc else s.readReg baseR := State.readReg_link s baseR
  rw [State.setPc_pc, toNat_baseIndex, hbase]

/-- Settles O14: the target is the base+index address of BaseR. -/
theorem jmprJumpsToBasePlusIndex : Obligations.JmprJumpsToBasePlusIndex :=
  ⟨decode_eq_row_iff 8, fun baseR index6 s => ⟨s.setPc (baseIndex (s.readReg baseR) index6), rfl,
    toNat_baseIndex (s.readReg baseR) index6, setPc_frame _ s⟩⟩

theorem baseIndex_zero (base : Word) : baseIndex base 0 = base := BitVec.add_zero base

/-- Settles O15: the mask of RET's row leaves no bit free, and an index of 0 adds nothing to R7. -/
theorem retJumpsThroughLinkRegister : Obligations.RetJumpsThroughLinkRegister := by
  refine ⟨fun w => ?_, fun s => ⟨s.setPc (s.readReg regLink), rfl, ?_, rfl, setPc_frame _ s⟩⟩
  · have hrow : decode w = some .ret ↔ w &&& BitVec.allOnes 16 = 0xD000 := decode_eq_row_iff 14 w
    rwa [BitVec.and_allOnes] at hrow
  · exact congrArg (fun target => Host.Outcome.next (s.setPc target)) (baseIndex_zero (s.readReg regLink))

end Sys2Proof.Proofs.Control
end

section
/-! PROOFS of the load instructions LD, LDI, LDR and LEA (42_loads.md; O16 to O19): LD, LDI and LDR end in a read whose
value goes to DR with its codes, LEA writes the address itself. -/

namespace Sys2Proof.Proofs.Loads

open Sys2Proof Sys2Proof.Machine Sys2Proof.Proofs.NextState Sys2Proof.Proofs.StateRules
  Sys2Proof.Proofs.MemoryRules Sys2Proof.Proofs.Encoding Sys2Proof.Proofs.Operate Sys2Proof.Proofs.Control

variable {s m u : State} {a p q v : Word}

/-! ### Reads -/

/-- Whether an address can be read depends on the state's parameters alone (20_memory.md R57). -/
theorem canRead_congr (h : u.params = s.params) : canRead u a ↔ canRead s a := by
  simp only [canRead, h]

/-- After the pointer's read and the devices' turn an address can be read exactly when it could before. -/
theorem canRead_after_pointer (h : memRead p s = .next (q, m)) :
    canRead (betweenAccesses p m) a ↔ canRead s a :=
  canRead_congr ((betweenAccesses_params p).trans (memRead_params h))

/-- From the pointer's read to the data's only the devices move. -/
theorem devicesMoved_two_reads (hpointer : memRead p s = .next (q, m))
    (hdata : memRead q (betweenAccesses p m) = .next (v, u)) : DevicesMoved s u :=
  ((devicesMoved_memRead hpointer).trans (devicesMoved_betweenAccesses p m)).trans (devicesMoved_memRead hdata)

/-! ### The load LD, LDI and LDR share -/

/-- A result written after a read has its own codes, and only DR differs from before the read (42_loads.md R130). -/
theorem writeResult_of_devicesMoved (dr : Reg) (v : Word) (h : DevicesMoved s u) :
    CodesOf v (u.writeResult dr v) ∧ SameRegsExcept [dr] s (u.writeResult dr v) ∧ (u.writeResult dr v).pc = s.pc := by
  obtain ⟨hcodes, hregs, -⟩ := writeResult_codes_and_frame dr v u
  rw [readReg_writeResult_same] at hcodes
  exact ⟨hcodes, fun r hr => (hregs r hr).trans (h.readReg r), h.pc⟩

theorem loadFrom_of_memRead (dr : Reg) (h : memRead a s = .next (v, u)) :
    loadFrom a dr s = .next (u.writeResult dr v) := by
  rw [loadFrom, h, andThen_nextOf]

/-- A load completes where its address can be read, with the value, the effect and the codes of that read
(42_loads.md R130). -/
theorem loadFrom_of_canRead (dr : Reg) (h : canRead s a) : ∃ t, loadFrom a dr s = .next t ∧
    ReadsAs s a (t.readReg dr) ∧ ReadEffect s a t ∧ CodesOf (t.readReg dr) t ∧ SameRegsExcept [dr] s t ∧
      t.pc = s.pc := by
  obtain ⟨⟨v, u⟩, hread⟩ := memRead_of_canRead h
  obtain ⟨-, hvalue, -⟩ := memRead_next hread
  refine ⟨u.writeResult dr v, loadFrom_of_memRead dr hread, ?_⟩
  rw [readReg_writeResult_same]
  exact ⟨hvalue, readEffect_of_memRead hread, writeResult_of_devicesMoved dr v (devicesMoved_memRead hread)⟩

theorem loadFrom_of_not_canRead (dr : Reg) (h : ¬canRead s a) : loadFrom a dr s = .refused (.ioExtraAccess a) := by
  rw [loadFrom, memRead_of_not_canRead h, andThen_refusedOf]

/-! ### LD and LDR -/

/-- Settles O16: LD is the load from the page address. -/
theorem ldLoadsFromPage : Obligations.LdLoadsFromPage :=
  ⟨decode_eq_row_iff 9, fun dr _ _ => ⟨loadFrom_of_canRead dr, loadFrom_of_not_canRead dr⟩⟩

/-- Settles O18: LDR is the load from the base+index address, the one word with the value of that sum. -/
theorem ldrLoadsFromBasePlusIndex : Obligations.LdrLoadsFromBasePlusIndex := by
  refine ⟨decode_eq_row_iff 11, fun dr baseR index6 s a ha => ?_⟩
  obtain rfl : a = baseIndex (s.readReg baseR) index6 := BitVec.eq_of_toNat_eq (ha.trans (toNat_baseIndex _ _).symm)
  exact ⟨loadFrom_of_canRead dr, loadFrom_of_not_canRead dr⟩

/-! ### LDI -/

section
variable {off9 : BitVec 9} (dr : Reg)

/-- LDI with its pointer read is the load from where the pointer says (42_loads.md R131). -/
theorem exec_ldi_of_pointer (h : memRead (pgaddr s.pc off9) s = .next (q, m)) :
    exec (.ldi dr off9) s = loadFrom q dr (betweenAccesses (pgaddr s.pc off9) m) := by
  rw [exec, execLdi, h, andThen_nextOf]

/-- LDI with both reads made writes the value of the second, on the state the second left. -/
theorem exec_ldi_of_reads (hpointer : memRead (pgaddr s.pc off9) s = .next (q, m))
    (hdata : memRead q (betweenAccesses (pgaddr s.pc off9) m) = .next (v, u)) :
    exec (.ldi dr off9) s = .next (u.writeResult dr v) := by
  rw [exec_ldi_of_pointer dr hpointer]
  exact loadFrom_of_memRead dr hdata

/-- LDI with pointer and data in memory reads the two words and writes the second (42_loads.md R131). -/
theorem exec_ldi_of_memory (hpointer : isMemory s (pgaddr s.pc off9) = true)
    (hdata : isMemory s (s.mem.read (pgaddr s.pc off9).toNat) = true) :
    exec (.ldi dr off9) s =
      .next (s.writeResult dr (s.mem.read (s.mem.read (pgaddr s.pc off9).toNat).toNat)) := by
  refine exec_ldi_of_reads dr (memRead_memory hpointer) ?_
  rw [betweenAccesses_memory (isMemory_iff.mp hpointer).1]
  exact memRead_memory hdata

/-- LDI is refused where its pointer cannot be read. -/
theorem exec_ldi_of_not_canRead (h : ¬canRead s (pgaddr s.pc off9)) :
    exec (.ldi dr off9) s = .refused (.ioExtraAccess (pgaddr s.pc off9)) := by
  rw [exec, execLdi, memRead_of_not_canRead h, andThen_refusedOf]

/-- LDI is refused where its data cannot be read. -/
theorem exec_ldi_of_pointer_not_canRead (hpointer : memRead (pgaddr s.pc off9) s = .next (q, m)) (h : ¬canRead s q) :
    exec (.ldi dr off9) s = .refused (.ioExtraAccess q) := by
  rw [exec_ldi_of_pointer dr hpointer]
  exact loadFrom_of_not_canRead dr (mt (canRead_after_pointer hpointer).mp h)

end

/-- Settles O17: the pointer's read leaves what can be read, so the data can be read too, and between the reads only the
devices move. -/
theorem ldiLoadsThroughPointer : Obligations.LdiLoadsThroughPointer := by
  refine ⟨decode_eq_row_iff 10, fun dr off9 s hcan hpointers => ?completes, fun dr off9 s hpointer hdata => ?memory,
    fun dr _ _ => exec_ldi_of_not_canRead dr, fun dr _ _ _ _ => exec_ldi_of_pointer_not_canRead dr⟩
  case completes =>
    obtain ⟨⟨q, m⟩, hpointer⟩ := memRead_of_canRead hcan
    obtain ⟨-, hq, -⟩ := memRead_next hpointer
    obtain ⟨⟨v, u⟩, hdata⟩ := memRead_of_canRead ((canRead_after_pointer hpointer).mpr (hpointers q hq))
    have hmoved : DevicesMoved s u := devicesMoved_two_reads hpointer hdata
    obtain ⟨hcodes, hregs, hpc⟩ := writeResult_of_devicesMoved dr v hmoved
    obtain ⟨hmem, hout, hclock⟩ := hmoved.outside
    obtain ⟨-, -, -, -, hdevices⟩ := writeResult_codes_and_frame dr v u
    exact ⟨q, m, v, u, u.writeResult dr v, hpointer, hdata, exec_ldi_of_reads dr hpointer hdata,
      readReg_writeResult_same dr v u, hcodes, hregs, hpc, hmem, hout, hclock, hmoved.sameRequests, hdevices⟩
  case memory =>
    obtain ⟨-, -, -, -, hdevices⟩ := writeResult_codes_and_frame dr _ s
    exact ⟨_, exec_ldi_of_memory dr hpointer hdata, readReg_writeResult_same dr _ s, hdevices⟩

/-! ### LEA -/

/-- Settles O19: LEA writes the page address as a result, without a read. -/
theorem leaLoadsPageAddress : Obligations.LeaLoadsPageAddress := by
  refine ⟨decode_eq_row_iff 12, fun dr off9 s =>
    ⟨s.writeResult dr (pgaddr s.pc off9), rfl, ?_, writeResult_codes_and_frame dr _ s⟩⟩
  rw [readReg_writeResult_same]
  exact pgaddr_eq_append s.pc off9

end Sys2Proof.Proofs.Loads
end

section
/-! PROOFS of the store instructions ST, STI and STR (43_stores.md; O20 to O22): each ends in one store, which completes
with the effect of its address or is refused by name. -/

namespace Sys2Proof.Proofs.Stores

open Sys2Proof Sys2Proof.Machine Sys2Proof.Proofs.NextState Sys2Proof.Proofs.MemoryRules
  Sys2Proof.Proofs.Encoding Sys2Proof.Proofs.Control

variable {s m u t : State} {a q v : Word}

/-! ### The store ST, STI and STR share -/

/-- A store completes where its address can be written, with the effect of that address, and leaves the processor
(20_memory.md R54). -/
theorem memWrite_effect_and_frame (v : Word) (h : canWrite s a) : ∃ t, memWrite a v s = .next t ∧
    StoreEffect s a v t ∧ SameRegsExcept [] s t ∧ SameCodes s t ∧ t.pc = s.pc := by
  obtain ⟨completes, -⟩ := memWriteByAddress a v s
  exact completes h

/-! ### ST and STR -/

/-- Settles O20: ST is the store to the page address. -/
theorem stStoresToPage : Obligations.StStoresToPage :=
  ⟨decode_eq_row_iff 16, fun sr _ s =>
    ⟨memWrite_effect_and_frame (s.readReg sr), memWrite_of_not_canWrite (s.readReg sr)⟩⟩

/-- Settles O22: STR is the store to the base+index address. -/
theorem strStoresToBasePlusIndex : Obligations.StrStoresToBasePlusIndex :=
  ⟨decode_eq_row_iff 18, fun _ _ _ => toNat_baseIndex _ _, fun sr _ _ s =>
    ⟨memWrite_effect_and_frame (s.readReg sr), memWrite_of_not_canWrite (s.readReg sr)⟩⟩

/-! ### A store after the devices moved -/

/-- A store writes the memory word at its address only, adds to the screen at CRTDR only, and writes the clock enable
bit at MCR only (20_memory.md R54). -/
theorem outside_of_storeEffect (h : StoreEffect s a v t) : SameRequests s t ∧ SameMemoryExcept a s t ∧
    t.output = (if a = crtdrAddr then s.output ++ [v.extractLsb' 0 8] else s.output) ∧
    t.clockEnable = (if a = mcrAddr then v.getLsbD 15 else s.clockEnable) := by
  obtain ⟨-, hrequests, h⟩ := h
  refine ⟨hrequests, ?_⟩
  split_ifs at h ⊢ with hcrtdr hmcr hmcr
  · exact absurd (hcrtdr.symm.trans hmcr) (by decide)
  · obtain ⟨hout, -, -, hclock, hmem⟩ := h
    exact ⟨fun b _ => hmem b, hout, hclock⟩
  · obtain ⟨hclock, ⟨hout, -⟩, hmem⟩ := h
    exact ⟨fun b _ => hmem b, hout, hclock⟩
  · obtain ⟨-, hmem, ⟨hout, -⟩, hclock⟩ := h
    exact ⟨hmem, hout, hclock⟩

/-- What a store made after the devices moved leaves as it was before they did: they write neither the processor, nor
memory, nor the screen, nor the clock enable bit (20_memory.md R59). -/
theorem memWrite_frame_of_devicesMoved (hmoved : DevicesMoved s u) (h : memWrite a v u = .next t) :
    SameRegsExcept [] s t ∧ SameCodes s t ∧ t.pc = s.pc ∧ SameRequests s t ∧ SameMemoryExcept a s t ∧
      t.output = (if a = crtdrAddr then s.output ++ [v.extractLsb' 0 8] else s.output) ∧
      t.clockEnable = (if a = mcrAddr then v.getLsbD 15 else s.clockEnable) := by
  obtain ⟨hregs, hcodes, hpc⟩ := memWrite_processor h
  have houtside := outside_of_storeEffect (storeEffect_of_memWrite h)
  obtain ⟨k, c, r, d, i, rfl⟩ := hmoved
  exact ⟨hregs, hcodes, hpc, houtside⟩

/-! ### STI -/

section
variable {off9 : BitVec 9} (sr : Reg)

/-- STI with its pointer read is the store to where the pointer says (43_stores.md R141). -/
theorem exec_sti_of_pointer (h : memRead (pgaddr s.pc off9) s = .next (q, m)) :
    exec (.sti sr off9) s = memWrite q (s.readReg sr) (betweenAccesses (pgaddr s.pc off9) m) := by
  rw [exec, execSti, h, andThen_nextOf]

/-- STI with its pointer in memory is the store to where the pointer says, in the starting state itself. -/
theorem exec_sti_of_memory (h : isMemory s (pgaddr s.pc off9) = true) :
    exec (.sti sr off9) s = memWrite (s.mem.read (pgaddr s.pc off9).toNat) (s.readReg sr) s := by
  rw [exec_sti_of_pointer sr (memRead_memory h), betweenAccesses_memory (isMemory_iff.mp h).1]

/-- STI is refused where its pointer cannot be read. -/
theorem exec_sti_of_not_canRead (h : ¬canRead s (pgaddr s.pc off9)) :
    exec (.sti sr off9) s = .refused (.ioExtraAccess (pgaddr s.pc off9)) := by
  rw [exec, execSti, memRead_of_not_canRead h, andThen_refusedOf]

end

/-- Settles O21: from the pointer's read to the store only the devices move, and with the pointer in memory nothing
does. -/
theorem stiStoresThroughPointer : Obligations.StiStoresThroughPointer := by
  refine ⟨decode_eq_row_iff 17, fun sr off9 s q m hpointer hcan => ?completes, fun sr off9 s hpointer hcan => ?memory,
    fun sr _ _ => exec_sti_of_not_canRead sr, fun sr off9 s q m hpointer hcannot => ?refused⟩
  case completes =>
    obtain ⟨t, hwrite⟩ := memWrite_of_canWrite (s.readReg sr) hcan
    have hmoved : DevicesMoved s (betweenAccesses (pgaddr s.pc off9) m) :=
      (devicesMoved_memRead hpointer).trans (devicesMoved_betweenAccesses _ m)
    exact ⟨t, (exec_sti_of_pointer sr hpointer).trans hwrite, storeEffect_of_memWrite hwrite,
      memWrite_frame_of_devicesMoved hmoved hwrite⟩
  case memory =>
    rw [exec_sti_of_memory sr hpointer]
    exact memWrite_effect_and_frame (s.readReg sr) hcan
  case refused =>
    rw [exec_sti_of_pointer sr hpointer]
    exact memWrite_of_not_canWrite (s.readReg sr) hcannot

end Sys2Proof.Proofs.Stores
end

section
/-! PROOFS of the system instructions TRAP and RTI (44_system.md; O23, O24): the trap entry, and the return from
interrupt as two reads followed by the writes of the codes, R6 and the PC. -/

namespace Sys2Proof.Proofs.SystemInstructions

open Sys2Proof Sys2Proof.Machine Sys2Proof.Proofs.NextState Sys2Proof.Proofs.MemoryRules
  Sys2Proof.Proofs.Encoding Sys2Proof.Proofs.Control Sys2Proof.Proofs.Loads

variable {s m u : State} {v : BitVec 8} {a w x : Word}

/-! ### The trap entry -/

/-- The zero-extended vector keeps its value (30_encoding.md R89). -/
theorem toNat_zext8 (v : BitVec 8) : (zext8 v).toNat = v.toNat := BitVec.toNat_setWidth_of_le (by decide)

/-- The trap vector table x0000 to x00FF holds no device register (10_state.md R30). -/
theorem isDevice_zext8 (v : BitVec 8) : isDevice (zext8 v) = false := by
  have table : ∀ d : Word, 0x100 ≤ d.toNat → zext8 v ≠ d := by
    rintro d hd rfl
    have hv : v.toNat < 256 := v.isLt
    rw [toNat_zext8] at hd
    omega
  exact isDevice_eq_false.mpr ⟨table _ (by decide), table _ (by decide), table _ (by decide), table _ (by decide),
    table _ (by decide)⟩

/-- Trap entry is the link and the jump to the table's word (60_exceptions.md R173). -/
theorem trapEntry_of_memory (h : zext8 v ∉ s.params.ioExtra) :
    trapEntry v s = .next (s.link.setPc (s.mem.read v.toNat)) := by
  have hread : memRead (zext8 v) s.link = .next (s.mem.read v.toNat, s.link) := by
    rw [memRead_memory (s := s.link) (isMemory_iff.mpr ⟨isDevice_zext8 v, h⟩), toNat_zext8, State.link_mem]
  exact congrArg (andThen · fun r => .next (r.2.setPc r.1)) hread

/-- Trap entry is refused where the table's address is in IO_EXTRA (20_memory.md R57). -/
theorem trapEntry_of_ioExtra (h : zext8 v ∈ s.params.ioExtra) :
    trapEntry v s = .refused (.ioExtraAccess (zext8 v)) := by
  have hcannot : ¬canRead s.link (zext8 v) := by simp [canRead, isDevice_zext8, h]
  exact congrArg (andThen · fun r => .next (r.2.setPc r.1)) (memRead_of_not_canRead hcannot)

/-! ### TRAP -/

/-- TRAP with a vector below x20 is refused (44_system.md R153). -/
theorem exec_trap_reserved (s : State) (h : v.toNat < 0x20) :
    exec (.trap v) s = .refused (.reservedTrapVector v) :=
  if_pos h

/-- In contract mode TRAP is the system call (44_system.md R154). -/
theorem exec_trap_of_contract (hcontract : s.params.trapModel = .contract) (h : 0x20 ≤ v.toNat) :
    exec (.trap v) s = systemCall v s := by
  rw [exec, execTrap, if_neg (Nat.not_lt.mpr h), hcontract]

/-- A vector that Table A.3 does not assign is an ordinary TRAP (44_system.md R154). -/
theorem systemCall_unassigned (s : State) (h : v ∉ [0x20, 0x21, 0x22, 0x23, 0x25]) :
    systemCall v s = trapEntry v s := by
  simp only [List.mem_cons, List.not_mem_nil, or_false, not_or] at h
  obtain ⟨notGetc, notOut, notPuts, notIn, notHalt⟩ := h
  rw [systemCall, if_neg notGetc, if_neg notOut, if_neg notPuts, if_neg notIn, if_neg notHalt]

/-- TRAP is the trap entry in image mode, and in contract mode for the vectors Table A.3 does not assign
(44_system.md R150, R154). -/
theorem exec_trap_eq_trapEntry (h : 0x20 ≤ v.toNat)
    (hcall : s.params.trapModel = .image ∨ v ∉ [0x20, 0x21, 0x22, 0x23, 0x25]) :
    exec (.trap v) s = trapEntry v s := by
  cases hmodel : s.params.trapModel with
  | image => rw [exec, execTrap, if_neg (Nat.not_lt.mpr h), hmodel]
  | contract =>
    have hunassigned := hcall.resolve_left (by simp [hmodel])
    rw [exec_trap_of_contract hmodel h, systemCall_unassigned s hunassigned]

/-- Settles O23: TRAP is the trap entry, whose table address is never a device register. -/
theorem trapLinksAndJumpsThroughTable : Obligations.TrapLinksAndJumpsThroughTable := by
  refine ⟨decode_eq_row_iff 19, fun v s => exec_trap_reserved s, fun v s hv hcall => ?_⟩
  rw [exec_trap_eq_trapEntry hv hcall]
  exact ⟨fun hmem => ⟨s.link.setPc (s.mem.read v.toNat), trapEntry_of_memory hmem, readReg_link_setPc_same _ s, rfl,
    link_setPc_frame _ s⟩, trapEntry_of_ioExtra⟩

/-! ### A read after a write of a register or of the codes -/

/-- A read and a register write can be made in either order. -/
theorem memRead_writeReg (a : Word) (r : Reg) (x : Word) (s : State) :
    memRead a (s.writeReg r x) = andThen (memRead a s) fun q => .next (q.1, q.2.writeReg r x) := by
  unfold memRead
  rw [State.writeReg_params]
  split_ifs <;> rfl

/-- A read and the pop of the codes can be made in either order. -/
theorem memRead_popFlags (a w : Word) (s : State) :
    memRead a (s.popFlags w) = andThen (memRead a s) fun q => .next (q.1, q.2.popFlags w) := by
  unfold memRead
  rw [State.popFlags_params]
  split_ifs <;> rfl

theorem betweenAccesses_popFlags (d w : Word) (s : State) :
    betweenAccesses d (s.popFlags w) = (betweenAccesses d s).popFlags w := by
  rw [State.popFlags, betweenAccesses_setFlags, State.popFlags, betweenAccesses_params]

/-! ### RTI -/

/-- The second write of a register is the one that stays (10_state.md R21). -/
theorem writeReg_writeReg_same (r : Reg) (x y : Word) (s : State) :
    (s.writeReg r x).writeReg r y = s.writeReg r y := by
  simp [State.writeReg]

/-- The state after RTI, from the starting state and the state `u` its two reads leave: the codes from the word `w`,
the PC, R6 two less (44_system.md R151). -/
def rtiResult (s u : State) (w target : Word) : State :=
  ((u.popFlags w).setPc target).writeReg 6 (s.readReg 6 - 2)

/-- RTI with the codes read is the second read, from the address below, and then all its writes. -/
theorem exec_rti_of_codes (h : memRead (s.readReg 6) s = .next (w, m)) :
    exec .rti s = andThen (memRead (s.readReg 6 - 1) (betweenAccesses (s.readReg 6) m)) fun r =>
      .next (rtiResult s r.2 w r.1) := by
  have hsp : m.readReg 6 = s.readReg 6 := (devicesMoved_memRead h).readReg 6
  have two : s.readReg 6 - 1 - 1 = s.readReg 6 - 2 := BitVec.sub_sub _ 1 1
  rw [exec, execRti, interruptReturn, show regSP = 6 from rfl, h, andThen_nextOf]
  simp only [State.readReg_popFlags, State.readReg_writeReg_same, betweenAccesses_writeReg, betweenAccesses_popFlags,
    memRead_writeReg, memRead_popFlags, hsp]
  cases memRead (s.readReg 6 - 1) (betweenAccesses (s.readReg 6) m) with
  | next r =>
    simp only [andThen_nextOf, State.readReg_setPc, State.readReg_writeReg_same, two]
    exact congrArg Host.Outcome.next (writeReg_writeReg_same 6 _ _ ((r.2.popFlags w).setPc r.1))
  | _ => rfl

/-- RTI is refused where the address of the codes cannot be read. -/
theorem exec_rti_of_not_canRead (h : ¬canRead s (s.readReg 6)) :
    exec .rti s = .refused (.ioExtraAccess (s.readReg 6)) := by
  rw [exec, execRti, interruptReturn, show regSP = 6 from rfl, memRead_of_not_canRead h, andThen_refusedOf]

/-- RTI writes the codes, the PC and R6; its reads move the devices only (44_system.md R151). -/
theorem rtiResult_frame (w target : Word) (h : DevicesMoved s u) :
    (rtiResult s u w target).codes = poppedCodes s.params.nzpLayout w ∧
      (rtiResult s u w target).readReg 6 = s.readReg 6 - 2 ∧ SameRegsExcept [6] s (rtiResult s u w target) ∧
      SameMemory s (rtiResult s u w target) ∧ (rtiResult s u w target).output = s.output ∧
      (rtiResult s u w target).clockEnable = s.clockEnable ∧ SameRequests s (rtiResult s u w target) := by
  obtain ⟨k, c, r, d, i, rfl⟩ := h
  refine ⟨rfl, State.readReg_writeReg_same _ _ _, fun q hq => ?reg, fun _ => rfl, rfl, rfl, ⟨rfl, rfl⟩⟩
  case reg =>
    exact State.readReg_writeReg_ne _ _ _ _ (List.ne_of_not_mem_cons hq)

/-- Settles O24: the first read leaves what can be read, so the second can be made too, and with the first in memory the
second is made in the starting state itself. -/
theorem rtiPopsCodesThenPc : Obligations.RtiPopsCodesThenPc := by
  refine ⟨fun w => ?word, fun s hcodes hpc => ?completes, fun _ => exec_rti_of_not_canRead,
    fun s hcodes hpc => ?refused⟩
  case word =>
    have hrow : decode w = some .rti ↔ w &&& BitVec.allOnes 16 = 0x8000 := decode_eq_row_iff 15 w
    rwa [BitVec.and_allOnes] at hrow
  case completes =>
    obtain ⟨⟨w, m⟩, hw⟩ := memRead_of_canRead hcodes
    obtain ⟨⟨target, u⟩, hu⟩ := memRead_of_canRead ((canRead_after_pointer hw).mpr hpc)
    obtain ⟨-, htarget, -⟩ := memRead_next hu
    have hmoved : DevicesMoved s u :=
      ((devicesMoved_memRead hw).trans (devicesMoved_betweenAccesses _ m)).trans (devicesMoved_memRead hu)
    obtain ⟨hnzp, hsp, hregs, hmem, hout, hclock, hrequests⟩ := rtiResult_frame w target hmoved
    refine ⟨w, m, rtiResult s u w target, hw, by rw [exec_rti_of_codes hw, hu, andThen_nextOf], hnzp, htarget, hsp,
      hregs, hmem, hout, hclock, hrequests, fun hmemory => ?_⟩
    have hfirst : (w, m) = (s.mem.read (s.readReg 6).toNat, s) :=
      Host.Outcome.next.inj (hw.symm.trans (memRead_memory hmemory))
    obtain ⟨rfl, rfl⟩ := Prod.mk.inj hfirst
    rw [betweenAccesses_memory (isMemory_iff.mp hmemory).1] at hu
    exact ⟨rfl, (readEffect_of_memRead hu :)⟩
  case refused =>
    obtain ⟨⟨w, m⟩, hw⟩ := memRead_of_canRead hcodes
    rw [exec_rti_of_codes hw, memRead_of_not_canRead (mt (canRead_after_pointer hw).mp hpc), andThen_refusedOf]

end Sys2Proof.Proofs.SystemInstructions
end

section
/-! PROOFS of the five system calls in contract mode (44_system.md R154 to R160; O27 to O31): the character a call takes
from the keyboard, the string PUTS displays, and what a call leaves. -/

namespace Sys2Proof.Proofs.SystemCalls

open Sys2Proof Sys2Proof.Machine Sys2Proof.Proofs.Scope Sys2Proof.Proofs.StateRules
  Sys2Proof.Proofs.SystemInstructions

variable {s : State} {a : Word} {c : Byte} {cs : List Byte}

/-! ### What a call leaves -/

/-- What a call leaves beside the registers and the codes is as before, outside the operating system's own area
(44_system.md R160). -/
theorem afterCall_frame (s : State) : SameScreen s (afterCall s) ∧ SameKeyboard s (afterCall s) ∧
    (afterCall s).pc = s.pc ∧ (afterCall s).clockEnable = s.clockEnable ∧ SameRequests s (afterCall s) ∧
      SameUserMemory s (afterCall s) := by
  obtain ⟨k, g, n, z, p, m, h, hmem⟩ := afterCall_eq (s := s)
  rw [h]
  exact ⟨⟨rfl, rfl, rfl⟩, ⟨rfl, rfl, rfl⟩, rfl, rfl, ⟨rfl, rfl⟩, hmem⟩

/-- A call that displays a text adds it to the screen and leaves the rest as a call does (44_system.md R160). -/
theorem afterCall_displayText_frame (cs : List Byte) (s : State) :
    (afterCall (displayText cs s)).output = s.output ++ cs ∧ (afterCall (displayText cs s)).pc = s.pc ∧
      (afterCall (displayText cs s)).clockEnable = s.clockEnable ∧ SameKeyboard s (afterCall (displayText cs s)) ∧
      SameRequests s (afterCall (displayText cs s)) ∧ SameUserMemory s (afterCall (displayText cs s)) := by
  obtain ⟨r, d, h⟩ := displayText_eq (s := s) cs
  have hframe := afterCall_frame (displayText cs s)
  rw [h] at hframe ⊢
  obtain ⟨⟨hout, -⟩, hkeyboard, hpc, hclock, hrequests, hmem⟩ := hframe
  exact ⟨hout, hpc, hclock, hkeyboard, hrequests, hmem⟩

/-! ### The character a call takes -/

/-- The keyboard after a call has taken the character `c` (44_system.md R155). -/
def withKeyTaken (s : State) (c : Byte) : State :=
  { s with kbdReady := false, kbdData := c, kbdInput := inputAfterKey s }

/-- A call gets the waiting character or else the next of KBD_INPUT, and there is none exactly when neither is there
(44_system.md R155). -/
theorem takeKey_eq (s : State) : takeKey s = (nextKey s).map fun c => (c, withKeyTaken s c) := by
  unfold takeKey nextKey withKeyTaken inputAfterKey
  cases hready : s.kbdReady with
  | true => rfl
  | false =>
    cases hnext : nextTyped s.kbdInput with
    | none => simp [keyNumber_of_nextTyped_eq_none hnext]
    | some r =>
      obtain ⟨hkey, hrest⟩ := nextTyped_eq_some hnext
      simp [hkey, hrest]

theorem takeKey_of_nextKey (h : nextKey s = some c) : takeKey s = some (c, withKeyTaken s c) := by
  rw [takeKey_eq, h, Option.map_some]

theorem takeKey_of_no_nextKey (h : nextKey s = none) : takeKey s = none := by
  rw [takeKey_eq, h, Option.map_none]

theorem toNat_readReg_zero_zext8 (c : Byte) (s : State) : ((s.writeReg 0 (zext8 c)).readReg 0).toNat = c.toNat := by
  rw [State.readReg_writeReg_same, toNat_zext8]

/-! ### GETC -/

theorem callGetc_of_nextKey (h : nextKey s = some c) :
    callGetc s = .next ((afterCall (withKeyTaken s c)).writeReg 0 (zext8 c)) := by
  rw [callGetc, takeKey_of_nextKey h]

theorem callGetc_of_no_nextKey (h : nextKey s = none) : callGetc s = .fault .noCharacter := by
  rw [callGetc, takeKey_of_no_nextKey h]

/-- Settles O27: GETC takes the next character, and a call leaves the screen. -/
theorem getcReturnsNextKey : Obligations.GetcReturnsNextKey := by
  intro s hcontract
  have hexec : exec (.trap 0x20) s = callGetc s := exec_trap_of_contract hcontract (by decide)
  rw [hexec]
  refine ⟨fun c hkey => ?_, callGetc_of_no_nextKey⟩
  obtain ⟨hscreen, ⟨hready, -, hinput⟩, hrest⟩ := afterCall_frame (withKeyTaken s c)
  exact ⟨_, callGetc_of_nextKey hkey, toNat_readReg_zero_zext8 c _, hinput, hready, hscreen, hrest⟩

/-! ### OUT -/

/-- Settles O28: OUT is a call that displays the low byte of R0. -/
theorem outDisplaysLowByteOfR0 : Obligations.OutDisplaysLowByteOfR0 := by
  intro s hcontract
  have hexec : exec (.trap 0x21) s = callOut s := exec_trap_of_contract hcontract (by decide)
  have hbyte : lowByte (s.readReg 0) = (s.readReg 0).extractLsb' 0 8 := BitVec.setWidth_eq_extractLsb' (by decide)
  rw [hexec, callOut, hbyte]
  exact ⟨_, rfl, afterCall_displayText_frame _ s⟩

/-! ### PUTS -/

/-- A string keeps clear of CRTSR, so it is shorter than the way from its address up to there (log 29). -/
theorem length_lt_of_stringAt (h : StringAt s a cs) : cs.length < (crtsrAddr - a).toNat := by
  have below {b : Word} (hmem : isMemory s b = true) : b ≠ crtsrAddr := by
    obtain ⟨hdevice, -⟩ := isMemory_iff.mp hmem
    exact (isDevice_eq_false.mp hdevice).1
  induction cs generalizing a with
  | nil =>
    have ha : a ≠ crtsrAddr := below h.1
    simp only [List.length_nil]
    bv_omega
  | cons c cs ih =>
    obtain ⟨hmem, -, -, htail⟩ := h
    have ha : a ≠ crtsrAddr := below hmem
    have hrest := ih htail
    simp only [List.length_cons]
    bv_omega

/-- The characters read are those of the string, when there is an address to try for each and for the end. -/
theorem readString_of_stringAt {fuel : Nat} (h : StringAt s a cs) (hfuel : cs.length < fuel) :
    readString fuel a s = .next cs := by
  induction fuel generalizing a cs with
  | zero => exact absurd hfuel (Nat.not_lt_zero _)
  | succ fuel ih =>
    cases cs with
    | nil =>
      obtain ⟨hmem, hend⟩ := h
      rw [readString, if_pos hmem, if_pos hend]
    | cons c cs =>
      obtain ⟨hmem, hchar, rfl, htail⟩ := h
      rw [readString, if_pos hmem, if_neg hchar, ih htail (Nat.lt_of_succ_lt_succ hfuel), andThen_nextOf]

/-- Reading a string gives a string that stands there, or is refused by name (44_system.md R157). -/
theorem readString_cases (fuel : Nat) (a : Word) (s : State) :
    (∃ cs, readString fuel a s = .next cs ∧ StringAt s a cs) ∨
      ∃ b, readString fuel a s = .refused (.stringNotInMemory b) := by
  induction fuel generalizing a with
  | zero => exact .inr ⟨a, rfl⟩
  | succ fuel ih =>
    rw [readString]
    split_ifs with hmem hend
    · exact .inl ⟨[], rfl, hmem, hend⟩
    · rcases ih (a + 1) with ⟨cs, htail, hcs⟩ | ⟨b, htail⟩
      · exact .inl ⟨_ :: cs, by rw [htail, andThen_nextOf], hmem, hend, rfl, hcs⟩
      · exact .inr ⟨b, by rw [htail, andThen_refusedOf]⟩
    · exact .inr ⟨a, rfl⟩

theorem callPuts_of_stringAt (h : StringAt s (s.readReg 0) cs) : callPuts s = .next (afterCall (displayText cs s)) := by
  have hlength : cs.length < 65536 := (length_lt_of_stringAt h).trans (BitVec.isLt _)
  rw [callPuts, readString_of_stringAt h hlength, andThen_nextOf]

theorem callPuts_of_no_string (h : ¬∃ cs, StringAt s (s.readReg 0) cs) :
    ∃ b, callPuts s = .refused (.stringNotInMemory b) := by
  rcases readString_cases 65536 (s.readReg 0) s with ⟨cs, -, hcs⟩ | ⟨b, hb⟩
  · exact absurd ⟨cs, hcs⟩ h
  · exact ⟨b, by rw [callPuts, hb, andThen_refusedOf]⟩

/-- Settles O29: PUTS is a call that displays the string, or is refused with the reading of it. -/
theorem putsDisplaysStringAtR0 : Obligations.PutsDisplaysStringAtR0 := by
  intro s hcontract
  have hexec : exec (.trap 0x22) s = callPuts s := exec_trap_of_contract hcontract (by decide)
  rw [hexec]
  exact ⟨fun cs hcs => ⟨_, callPuts_of_stringAt hcs, afterCall_displayText_frame cs s⟩, callPuts_of_no_string⟩

/-! ### IN -/

/-- The state of IN once its prompt is displayed (44_system.md R158; log 31). -/
def prompted (s : State) : State := displayText (Config.freeText s.draws) (s.drawn 2)

theorem prompted_eq (s : State) : ∃ r d, prompted s =
    { s.drawn 2 with output := s.output ++ Config.freeText s.draws, crtData := d, crtReady := r } :=
  displayText_eq (s := s.drawn 2) _

/-- The prompt leaves the keyboard's next character. -/
theorem nextKey_prompted (s : State) : nextKey (prompted s) = nextKey s := by
  obtain ⟨r, d, h⟩ := prompted_eq s
  rw [h]
  rfl

/-- IN before the echo: the prompt is on the screen and the character `c` is taken; nothing else but the display's state
changed. -/
theorem withKeyTaken_prompted_eq (s : State) (c : Byte) : ∃ r d, withKeyTaken (prompted s) c =
    { withKeyTaken (s.drawn 2) c with output := s.output ++ Config.freeText s.draws, crtData := d, crtReady := r } := by
  obtain ⟨r, d, h⟩ := prompted_eq s
  exact ⟨r, d, by rw [h]; rfl⟩

theorem callIn_of_nextKey (h : nextKey s = some c) :
    callIn s = .next ((afterCall (displayText (c :: Config.freeText (s.draws + 1))
      (withKeyTaken (prompted s) c))).writeReg 0 (zext8 c)) := by
  have hkey : takeKey (displayText (Config.freeText s.draws) (s.drawn 2)) = some (c, withKeyTaken (prompted s) c) :=
    takeKey_of_nextKey ((nextKey_prompted s).trans h)
  rw [callIn, hkey]

theorem callIn_of_no_nextKey (h : nextKey s = none) : callIn s = .fault .noCharacter := by
  have hkey : takeKey (displayText (Config.freeText s.draws) (s.drawn 2)) = none :=
    takeKey_of_no_nextKey ((nextKey_prompted s).trans h)
  rw [callIn, hkey]

/-- Settles O30: IN displays its prompt, takes the next character, and is then a call that displays the echo and
more. -/
theorem inPromptsAndEchoes : Obligations.InPromptsAndEchoes := by
  intro s hcontract
  have hexec : exec (.trap 0x23) s = callIn s := exec_trap_of_contract hcontract (by decide)
  rw [hexec]
  refine ⟨fun c hkey => ?_, callIn_of_no_nextKey⟩
  have hcall := callIn_of_nextKey hkey
  have hframe := afterCall_displayText_frame (c :: Config.freeText (s.draws + 1)) (withKeyTaken (prompted s) c)
  obtain ⟨r, d, htaken⟩ := withKeyTaken_prompted_eq s c
  rw [htaken] at hcall hframe
  obtain ⟨hout, hpc, hclock, ⟨hready, -, hinput⟩, hrequests, hmem⟩ := hframe
  have hscreen := hout.trans (List.append_cons _ c _)
  exact ⟨_, Config.freeText s.draws, Config.freeText (s.draws + 1), hcall, hscreen, toNat_readReg_zero_zext8 c _,
    hinput, hready, hpc, hclock, hrequests, hmem⟩

/-! ### HALT -/

/-- Settles O31: HALT is a call that displays a message and then clears the clock enable bit. -/
theorem haltPrintsAndStops : Obligations.HaltPrintsAndStops := by
  intro s hcontract
  have hexec : exec (.trap 0x25) s = callHalt s := exec_trap_of_contract hcontract (by decide)
  obtain ⟨hout, -, -, hkeyboard, hrequests, hmem⟩ := afterCall_displayText_frame (Config.freeText s.draws) (s.drawn 2)
  exact ⟨_, Config.freeText s.draws, hexec, hout, rfl, step_of_stopped rfl, hkeyboard, hrequests, hmem⟩

end Sys2Proof.Proofs.SystemCalls
end

section
/-! PROOFS of interrupts and exceptions (60_exceptions.md): the store that stops the machine (O37), the interrupt entry
(O40) and the return from it (O41), the step that takes a pending interrupt (O43), what no step takes back (O52), and
which refusals an instruction can meet (O57). -/

namespace Sys2Proof.Proofs.Exceptions

open Sys2Proof Sys2Proof.Machine Sys2Proof.Proofs.NextState Sys2Proof.Proofs.StateRules
  Sys2Proof.Proofs.MemoryRules Sys2Proof.Proofs.Loads Sys2Proof.Proofs.Stores
  Sys2Proof.Proofs.SystemInstructions Sys2Proof.Proofs.SystemCalls

variable {s t u v : State} {a start : Word} {r : Refusal} {i : Instr}

/-! ### The clock enable bit -/

theorem memWrite_mcr (w : Word) (s : State) : memWrite mcrAddr w s = .next (writeMcr w s) := rfl

/-- Settles O37: a store to MCR keeps bit 15 of the word alone, and a machine whose clock is disabled takes no step. -/
theorem clearingClockEnableStops : Obligations.ClearingClockEnableStops := by
  intro w s hclear
  have hstop : writeMcr w s = { s with clockEnable := false } := by
    rw [writeMcr, BitVec.msb_eq_getLsbD_last, hclear]
  exact ⟨writeMcr w s, memWrite_mcr w s, hstop, step_of_stopped (by rw [hstop])⟩

/-! ### The interrupt entry -/

/-- The state in the service routine, from the interrupted state and the state `v` the two pushes leave
(60_exceptions.md R176). -/
def entered (start : Word) (s v : State) : State := (v.writeReg 6 (s.readReg 6 + 2)).setPc start

theorem memWrite_params {w : Word} (h : memWrite a w s = .next t) : t.params = s.params := by
  obtain ⟨-, ⟨-, hparams⟩, -⟩ := storeEffect_of_memWrite h
  exact hparams

/-- The pushed word depends on the codes and the parameters alone. -/
theorem pushedFlags_congr (hcodes : SameCodes s u) (hparams : u.params = s.params) : u.pushedFlags = s.pushedFlags := by
  obtain ⟨hn, hz, hp⟩ := hcodes
  simp only [State.pushedFlags, State.codes, hn, hz, hp, hparams]

/-- The interrupt entry is the store of the PC, then the store of the codes, and then the writes of R6 and the PC
(60_exceptions.md R176). -/
theorem interruptEntry_eq (start : Word) (s : State) : interruptEntry start s =
    andThen (memWrite (s.readReg 6 + 1) s.pc s) fun u =>
      andThen (memWrite (s.readReg 6 + 2) s.pushedFlags (betweenAccesses (s.readReg 6 + 1) u)) fun v =>
        .next (entered start s v) := by
  have two : s.readReg 6 + 1 + 1 = s.readReg 6 + 2 := BitVec.add_assoc _ 1 1
  rw [interruptEntry]
  simp only [show regSP = 6 from rfl, State.readReg_writeReg_same, State.writeReg_pc, memWrite_writeReg]
  cases hpush : memWrite (s.readReg 6 + 1) s.pc s with
  | next u =>
    obtain ⟨-, hcodes, -⟩ := memWrite_processor hpush
    have hflags (x : Word) : (u.writeReg 6 x).pushedFlags = s.pushedFlags :=
      pushedFlags_congr (s := s) hcodes (memWrite_params hpush :)
    simp only [andThen_nextOf, State.readReg_writeReg_same, hflags, two, writeReg_writeReg_same,
      betweenAccesses_writeReg, memWrite_writeReg]
    cases memWrite (s.readReg 6 + 2) s.pushedFlags (betweenAccesses (s.readReg 6 + 1) u) with
    | next v => simp only [andThen_nextOf, writeReg_writeReg_same, entered]
    | _ => rfl
  | _ => rfl

/-- On a stack of memory words the entry writes the two words, R6 and the PC, and nothing else. -/
theorem interruptEntry_of_memory (start : Word) (hpc : isMemory s (s.readReg 6 + 1) = true)
    (hcodes : isMemory s (s.readReg 6 + 2) = true) :
    interruptEntry start s = .next (entered start s
      ((s.writeMem (s.readReg 6 + 1) s.pc).writeMem (s.readReg 6 + 2) s.pushedFlags)) := by
  have hsecond : isMemory (s.writeMem (s.readReg 6 + 1) s.pc) (s.readReg 6 + 2) = true := hcodes
  rw [interruptEntry_eq, memWrite_memory _ hpc, andThen_nextOf, betweenAccesses_memory (isMemory_iff.mp hpc).1,
    memWrite_memory _ hsecond, andThen_nextOf]

/-- Two words written to two locations are both read back, and every other word is as before (20_memory.md R54). -/
theorem read_writeMem_writeMem {b : Word} (hne : a ≠ b) (x y : Word) (s : State) :
    ((s.writeMem a x).writeMem b y).mem.read a.toNat = x ∧ ((s.writeMem a x).writeMem b y).mem.read b.toNat = y ∧
      ∀ c : Nat, c ≠ a.toNat → c ≠ b.toNat → ((s.writeMem a x).writeMem b y).mem.read c = s.mem.read c := by
  have haddr : a.toNat ≠ b.toNat := mt BitVec.eq_of_toNat_eq hne
  simp +contextual [haddr]

/-- The two words of the entry on a stack in memory (60_exceptions.md R176). -/
theorem entered_memory (start : Word) (s : State) :
    let t := entered start s ((s.writeMem (s.readReg 6 + 1) s.pc).writeMem (s.readReg 6 + 2) s.pushedFlags)
    t.mem.read (s.readReg 6 + 1).toNat = s.pc ∧ t.mem.read (s.readReg 6 + 2).toNat = s.pushedFlags ∧
      ∀ c : Nat, c ≠ (s.readReg 6 + 1).toNat → c ≠ (s.readReg 6 + 2).toNat → t.mem.read c = s.mem.read c :=
  read_writeMem_writeMem (by bv_omega) s.pc s.pushedFlags s

/-- Where the pushes left registers outside R6 and the codes, so does the entry. -/
theorem readReg_entered (start : Word) (h : SameRegsExcept [] s v) :
    (entered start s v).readReg 6 = s.readReg 6 + 2 ∧ SameRegsExcept [6] s (entered start s v) :=
  ⟨State.readReg_writeReg_same v 6 _, fun q hq =>
    (State.readReg_writeReg_ne v 6 q _ (List.ne_of_not_mem_cons hq)).trans (h q List.not_mem_nil)⟩

/-- What the two pushes leave, wherever the stack is: registers, codes and requests, as the interrupted program had
them. -/
theorem pushes_frame {b x y : Word} (hpc : memWrite a x s = .next u)
    (hcodes : memWrite b y (betweenAccesses a u) = .next v) :
    SameRegsExcept [] s v ∧ SameCodes s v ∧ SameRequests s v := by
  obtain ⟨hregs, ⟨hn, hz, hp⟩, -, ⟨hpending, hparams⟩, -⟩ := memWrite_frame_of_devicesMoved (.refl s) hpc
  obtain ⟨hregs', ⟨hn', hz', hp'⟩, -, ⟨hpending', hparams'⟩, -⟩ :=
    memWrite_frame_of_devicesMoved (devicesMoved_betweenAccesses a u) hcodes
  exact ⟨fun q hq => (hregs' q hq).trans (hregs q hq), ⟨hn'.trans hn, hz'.trans hz, hp'.trans hp⟩,
    hpending'.trans hpending, hparams'.trans hparams⟩

/-- Settles O40: the entry is two stores and the writes of R6 and the PC, and each store completes or is refused as any
other. -/
theorem interruptEntryPushesPcThenCodes : Obligations.InterruptEntryPushesPcThenCodes := by
  refine ⟨fun start s hpc hcodes => ?memory, fun start s hcannot => ?firstRefused,
    fun start s u hpush => ⟨fun hcan => ?completes, fun hcannot => ?secondRefused⟩⟩
  case memory =>
    obtain ⟨hread1, hread2, hmem⟩ := entered_memory start s
    obtain ⟨hsp, hregs⟩ := readReg_entered (s := s) (v := (s.writeMem _ s.pc).writeMem _ s.pushedFlags) start
      fun _ _ => rfl
    exact ⟨_, interruptEntry_of_memory start hpc hcodes, rfl, hsp, hread1, hread2, hmem, hregs, ⟨rfl, rfl, rfl⟩,
      ⟨rfl, rfl, rfl⟩, ⟨rfl, rfl, rfl⟩, ⟨rfl, rfl⟩, rfl⟩
  case firstRefused =>
    obtain ⟨r, hrefused, hwhy⟩ := memWrite_of_not_canWrite s.pc hcannot
    exact ⟨r, by rw [interruptEntry_eq, hrefused, andThen_refusedOf], hwhy⟩
  case completes =>
    obtain ⟨v, hpush2⟩ := memWrite_of_canWrite s.pushedFlags hcan
    obtain ⟨hregs, hcodes, hrequests⟩ := pushes_frame hpush hpush2
    obtain ⟨hsp, hregs⟩ := readReg_entered start hregs
    exact ⟨entered start s v, by rw [interruptEntry_eq, hpush, andThen_nextOf, hpush2, andThen_nextOf], rfl, hsp,
      (storeEffect_of_memWrite hpush2 :), hregs, hcodes, hrequests⟩
  case secondRefused =>
    obtain ⟨r, hrefused, hwhy⟩ := memWrite_of_not_canWrite s.pushedFlags hcannot
    exact ⟨r, by rw [interruptEntry_eq, hpush, andThen_nextOf, hrefused, andThen_refusedOf], hwhy⟩

/-! ### The return from the service routine -/

/-- Whether an address is memory depends on the state's parameters alone (20_memory.md R57). -/
theorem isMemory_congr (h : u.params = s.params) (a : Word) : isMemory u a = isMemory s a := by
  simp only [isMemory, h]

/-- RTI on a stack of memory words reads the two words in the starting state itself (44_system.md R151). -/
theorem exec_rti_of_memory (hcodes : isMemory s (s.readReg 6) = true) (hpc : isMemory s (s.readReg 6 - 1) = true) :
    exec .rti s = .next
      (rtiResult s s (s.mem.read (s.readReg 6).toNat) (s.mem.read (s.readReg 6 - 1).toNat)) := by
  rw [exec_rti_of_codes (memRead_memory hcodes), betweenAccesses_memory (isMemory_iff.mp hcodes).1,
    memRead_memory hpc, andThen_nextOf]

/-- A layout with its inverse gives the interrupted codes back from the pushed word. -/
theorem poppedCodes_pushedFlags (h : LayoutHasInverse s.params.nzpLayout) :
    poppedCodes s.params.nzpLayout s.pushedFlags = s.codes :=
  h s.n s.z s.p

theorem sameCodes_iff_codes_eq : SameCodes s t ↔ t.codes = s.codes := by
  simp only [SameCodes, State.codes, Codes.mk.injEq]

/-- Settles O41: the routine leaves R6 and the two words of the entry, so RTI reads the word of the codes and then the
PC, and ends with R6 two less. -/
theorem rtiUndoesInterruptEntry : Obligations.RtiUndoesInterruptEntry := by
  intro start s t u hpc hcodes hinverse hentry hparams hsp hkeptPc hkeptCodes
  obtain rfl : entered start s _ = t :=
    Host.Outcome.next.inj ((interruptEntry_of_memory start hpc hcodes).symm.trans hentry)
  obtain ⟨hpushedPc, hpushedCodes, -⟩ := entered_memory start s
  rw [hpushedPc] at hkeptPc
  rw [hpushedCodes] at hkeptCodes
  replace hsp : u.readReg 6 = s.readReg 6 + 2 := hsp.trans (State.readReg_writeReg_same _ 6 _)
  replace hparams : u.params = s.params := hparams
  have hbelow : u.readReg 6 - 1 = s.readReg 6 + 1 := by rw [hsp]; bv_omega
  have hreturn : exec .rti u = .next (rtiResult u u s.pushedFlags s.pc) := by
    rw [exec_rti_of_memory (by rw [isMemory_congr hparams, hsp, hcodes]) (by rw [isMemory_congr hparams, hbelow, hpc]),
      hbelow, hsp, hkeptPc, hkeptCodes]
  obtain ⟨hpopped, hsp', hregs, hmem, hout, hclock, hrequests⟩ := rtiResult_frame s.pushedFlags s.pc (.refl u)
  refine ⟨_, hreturn, rfl, ?sp, ?codes, hregs, hmem, ⟨rfl, rfl, rfl⟩, ⟨rfl, rfl, rfl⟩, hrequests, hclock⟩
  case sp => rw [hsp', hsp, BitVec.add_sub_cancel]
  case codes => rw [sameCodes_iff_codes_eq, hpopped, hparams, poppedCodes_pushedFlags hinverse]

/-! ### The step that takes a request -/

theorem step_of_takeRequest {q : InterruptSource × State} (hrun : s.clockEnable = true)
    (h : takeRequest (agentsTurn s) = some q) : step s = interruptEntry q.1.start q.2 := by
  rw [step, if_pos hrun, h]

/-- Settles O43: the step takes one of the pending requests, and neither the taking nor the agents' turn touches the
registers, the codes, memory or the PC. -/
theorem stepTakesPendingInterrupt : Obligations.StepTakesPendingInterrupt := by
  intro s hrun hpending
  obtain ⟨q, hq⟩ := Option.ne_none_iff_exists'.mp (mt takeRequest_eq_none.mp hpending)
  obtain ⟨hmem, htaken⟩ := takeRequest_some hq
  obtain ⟨hregs, hcodes, hmemory, hpc, -⟩ := agentsTouchOnlyTheirOwn s
  refine ⟨q.1, q.2, hmem, step_of_takeRequest hrun hq, ?_⟩
  rw [htaken]
  exact ⟨hpc, rfl, hregs, hcodes, hmemory⟩

/-! ### What no step takes back -/

/-- `t` may come after `s` in a run: the same parameters, characters added to the screen, characters taken from the
front of the keyboard's input (00_scope.md R6, 60_exceptions.md R181, R183). -/
def RunContinues (s t : State) : Prop :=
  t.params = s.params ∧ (∃ cs, t.output = s.output ++ cs) ∧ ∃ k, t.kbdInput = afterKeys k s.kbdInput

theorem exists_append_of_output_eq (hout : t.output = s.output) : ∃ cs, t.output = s.output ++ cs :=
  ⟨[], by rw [hout, List.append_nil]⟩

theorem runContinues_of_same (hparams : t.params = s.params) (hout : t.output = s.output)
    (hinput : t.kbdInput = s.kbdInput) : RunContinues s t :=
  ⟨hparams, exists_append_of_output_eq hout, 0, hinput⟩

theorem RunContinues.refl (s : State) : RunContinues s s := runContinues_of_same rfl rfl rfl

theorem RunContinues.trans (hu : RunContinues s u) (ht : RunContinues u t) : RunContinues s t := by
  obtain ⟨hparams, ⟨cs, hout⟩, j, hinput⟩ := hu
  obtain ⟨hparams', ⟨ds, hout'⟩, k, hinput'⟩ := ht
  exact ⟨hparams'.trans hparams, ⟨cs ++ ds, by rw [hout', hout, List.append_assoc]⟩,
    j + k, by rw [hinput', hinput, afterKeys_add]⟩

/-- At most the next character of the input arrives, and nothing is displayed. -/
theorem runContinues_of_keyboard (hparams : t.params = s.params) (hout : t.output = s.output)
    (hkeyboard : SameKeyboard s t ∨ KeyArrives s t) : RunContinues s t := by
  rcases hkeyboard with ⟨-, -, hinput⟩ | ⟨-, -, hnext⟩
  · exact runContinues_of_same hparams hout hinput
  · obtain ⟨-, hinput⟩ := nextTyped_eq_some hnext
    exact ⟨hparams, exists_append_of_output_eq hout, 1, hinput.symm⟩

theorem runContinues_agentsTurn (s : State) : RunContinues s (agentsTurn s) := by
  obtain ⟨-, -, -, -, hout, -, -, hparams, hkeyboard, -⟩ := agentsTouchOnlyTheirOwn s
  exact runContinues_of_keyboard hparams hout hkeyboard

theorem runContinues_betweenAccesses (a : Word) (s : State) : RunContinues s (betweenAccesses a s) := by
  obtain ⟨-, -, -, -, ⟨-, hparams⟩, -, hout, -, -, hkeyboard, -⟩ := devicesBetweenAccessesTouchOnlyTheirOwn a s
  exact runContinues_of_keyboard hparams hout hkeyboard

theorem runContinues_memRead {q : Word × State} (h : memRead a s = .next q) : RunContinues s q.2 := by
  obtain ⟨-, -, hinput, ⟨hout, -⟩, ⟨-, hparams⟩, -⟩ := readEffect_of_memRead h
  exact runContinues_of_same hparams hout hinput

theorem runContinues_memWrite {w : Word} (h : memWrite a w s = .next t) : RunContinues s t := by
  obtain ⟨⟨-, -, hinput⟩, -⟩ := storeEffect_of_memWrite h
  obtain ⟨⟨-, hparams⟩, -, hout, -⟩ := outside_of_storeEffect (storeEffect_of_memWrite h)
  refine ⟨hparams, ?_, 0, hinput⟩
  split_ifs at hout
  · exact ⟨_, hout⟩
  · exact exists_append_of_output_eq hout

theorem runContinues_takeRequest {q : InterruptSource × State} (h : takeRequest s = some q) : RunContinues s q.2 := by
  obtain ⟨-, htaken⟩ := takeRequest_some h
  rw [htaken]
  exact .refl s

/-- From before the first of two accesses to the second: a read of the pointer or of the codes, and the devices. -/
theorem runContinues_pointer {q : Word × State} (h : memRead a s = .next q) :
    RunContinues s (betweenAccesses a q.2) :=
  (runContinues_memRead h).trans (runContinues_betweenAccesses a q.2)

theorem runContinues_loadFrom {dr : Reg} (h : loadFrom a dr s = .next t) : RunContinues s t := by
  obtain ⟨q, hread, h⟩ := andThen_eq_next.mp h
  obtain rfl := Host.Outcome.next.inj h
  exact (runContinues_memRead hread :)

theorem runContinues_trapEntry {w : BitVec 8} (h : trapEntry w s = .next t) : RunContinues s t := by
  obtain ⟨q, hread, h⟩ := andThen_eq_next.mp h
  obtain rfl := Host.Outcome.next.inj h
  exact (runContinues_memRead hread :)

theorem runContinues_interruptEntry (h : interruptEntry start s = .next t) : RunContinues s t := by
  rw [interruptEntry_eq] at h
  obtain ⟨u, hpc, h⟩ := andThen_eq_next.mp h
  obtain ⟨v, hcodes, h⟩ := andThen_eq_next.mp h
  obtain rfl := Host.Outcome.next.inj h
  exact ((runContinues_memWrite hpc).trans (runContinues_betweenAccesses _ u)).trans (runContinues_memWrite hcodes :)

theorem runContinues_rti (h : exec .rti s = .next t) : RunContinues s t := by
  obtain ⟨q, hcodes, -⟩ := andThen_eq_next.mp h
  rw [exec_rti_of_codes hcodes] at h
  obtain ⟨p, hpc, h⟩ := andThen_eq_next.mp h
  obtain rfl := Host.Outcome.next.inj h
  exact (runContinues_pointer hcodes).trans (runContinues_memRead hpc)

/-! ### The system calls -/

theorem runContinues_drawn (k : Nat) (s : State) : RunContinues s (s.drawn k) := .refl s

theorem runContinues_displayText (cs : List Byte) (s : State) : RunContinues s (displayText cs s) := by
  obtain ⟨r, d, h⟩ := displayText_eq (s := s) cs
  rw [h]
  exact ⟨rfl, ⟨cs, rfl⟩, 0, rfl⟩

theorem runContinues_afterCall (s : State) : RunContinues s (afterCall s) := by
  obtain ⟨⟨hout, -⟩, ⟨-, -, hinput⟩, -, -, ⟨-, hparams⟩, -⟩ := afterCall_frame s
  exact runContinues_of_same hparams hout hinput

theorem runContinues_callText (cs : List Byte) (s : State) : RunContinues s (afterCall (displayText cs s)) :=
  (runContinues_displayText cs s).trans (runContinues_afterCall _)

/-- What is left after a call has taken a character: the waiting one is no longer part of the input, any other is its
first. -/
theorem inputAfterKey_eq_afterKeys (s : State) : ∃ k, inputAfterKey s = afterKeys k s.kbdInput := by
  unfold inputAfterKey
  split
  · exact ⟨0, rfl⟩
  · exact ⟨1, rfl⟩

theorem runContinues_takeKey {q : Byte × State} (h : takeKey s = some q) : RunContinues s q.2 := by
  rw [takeKey_eq] at h
  obtain ⟨c, -, rfl⟩ := Option.map_eq_some_iff.mp h
  exact ⟨rfl, exists_append_of_output_eq rfl, inputAfterKey_eq_afterKeys s⟩

theorem runContinues_callGetc (h : callGetc s = .next t) : RunContinues s t := by
  unfold callGetc at h
  split at h
  · cases h
  · next q hq =>
    obtain rfl := Host.Outcome.next.inj h
    exact (runContinues_takeKey hq).trans (runContinues_afterCall q.2)

theorem runContinues_callPuts (h : callPuts s = .next t) : RunContinues s t := by
  obtain ⟨cs, -, h⟩ := andThen_eq_next.mp h
  obtain rfl := Host.Outcome.next.inj h
  exact runContinues_callText cs s

theorem runContinues_callIn (h : callIn s = .next t) : RunContinues s t := by
  unfold callIn at h
  split at h
  · cases h
  · next q hq =>
    obtain rfl := Host.Outcome.next.inj h
    have hprompt : RunContinues s (displayText (Config.freeText s.draws) (s.drawn 2)) :=
      (runContinues_drawn 2 s).trans (runContinues_displayText _ _)
    exact (hprompt.trans (runContinues_takeKey hq)).trans (runContinues_callText _ q.2)

theorem runContinues_systemCall {w : BitVec 8} (h : systemCall w s = .next t) : RunContinues s t := by
  unfold systemCall at h
  split_ifs at h
  · exact runContinues_callGetc h
  · obtain rfl := Host.Outcome.next.inj h
    exact runContinues_callText _ s
  · exact runContinues_callPuts h
  · exact runContinues_callIn h
  · obtain rfl := Host.Outcome.next.inj h
    exact (runContinues_drawn 2 s).trans (runContinues_callText (Config.freeText s.draws) (s.drawn 2))
  · exact runContinues_trapEntry h

/-- No instruction takes anything back, in either trap model. -/
theorem runContinues_exec (h : exec i s = .next t) : RunContinues s t := by
  cases i with
  | addReg | addImm | andReg | andImm | not | lea =>
    obtain rfl := Host.Outcome.next.inj h
    exact .refl s
  | br | jsr | jmp | jsrr | jmpr | ret =>
    obtain ⟨target, rfl | ⟨-, rfl⟩⟩ := exec_jump_next (by rfl) (by nofun) (by nofun) h
    · exact .refl s
    · exact .refl s
  | ld | ldr => exact runContinues_loadFrom h
  | ldi =>
    obtain ⟨q, hpointer, h⟩ := andThen_eq_next.mp h
    exact (runContinues_pointer hpointer).trans (runContinues_loadFrom h)
  | st | str => exact runContinues_memWrite h
  | sti =>
    obtain ⟨q, hpointer, h⟩ := andThen_eq_next.mp h
    exact (runContinues_pointer hpointer).trans (runContinues_memWrite h)
  | rti => exact runContinues_rti h
  | trap w =>
    rcases execTrap_next h with ⟨-, h⟩ | ⟨-, h⟩
    · exact runContinues_trapEntry h
    · exact runContinues_systemCall h

/-- Settles O52: the agents' turn, the taking of a request, the interrupt entry and every instruction take nothing
back. -/
theorem screenOnlyGrowsAndInputOnlyDrains : Obligations.ScreenOnlyGrowsAndInputOnlyDrains := by
  intro s t h
  rcases step_next h with ⟨q, hq, hentry⟩ | ⟨i, hexec⟩
  · exact ((runContinues_agentsTurn s).trans (runContinues_takeRequest hq)).trans (runContinues_interruptEntry hentry)
  · exact (runContinues_agentsTurn s).trans (runContinues_exec (s := (agentsTurn s).advancePc) hexec)

/-! ### Refusals -/

/-- The refusal of an access to an address in IO_EXTRA (20_memory.md R57). -/
def IoExtraRefusal (s : State) (r : Refusal) : Prop := ∃ a, a ∈ s.params.ioExtra ∧ r = .ioExtraAccess a

/-- The refusals only a store meets: CRTSR, KBSR, KBDR, and a display that is not ready (20_memory.md R54,
60_exceptions.md R183). -/
def StoreRefusal (s : State) (r : Refusal) : Prop :=
  (∃ a, (a = 0xF3FC ∨ a = 0xF400 ∨ a = 0xF401) ∧ r = .storeToDeviceRegister a) ∨
    (s.crtReady = false ∧ r = .displayNotReady)

theorem mem_ioExtra_of_not_canRead (h : ¬canRead s a) : a ∈ s.params.ioExtra := by
  by_contra hextra
  exact h (.inr hextra)

/-- What is refused by the name of an address that cannot be read is refused for IO_EXTRA. -/
theorem ioExtraRefusal_of_not_canRead {x : Access State} (hcannot : ¬canRead s a)
    (hx : x = .refused (.ioExtraAccess a)) (h : x = .refused r) : IoExtraRefusal s r :=
  ⟨a, mem_ioExtra_of_not_canRead hcannot, (Host.Outcome.refused.inj (hx.symm.trans h)).symm⟩

theorem next_ne_refused {x : Access State} (hx : x = .next t) : x ≠ .refused r := by
  rw [hx]
  nofun

theorem loadFrom_refused {dr : Reg} (h : loadFrom a dr s = .refused r) : IoExtraRefusal s r := by
  by_cases hcan : canRead s a
  · obtain ⟨t, ht, -⟩ := loadFrom_of_canRead dr hcan
    exact absurd h (next_ne_refused ht)
  · exact ioExtraRefusal_of_not_canRead hcan (loadFrom_of_not_canRead dr hcan) h

theorem exec_ldi_refused {dr : Reg} {off9 : BitVec 9} (h : exec (.ldi dr off9) s = .refused r) :
    IoExtraRefusal s r := by
  by_cases hcan : canRead s (pgaddr s.pc off9)
  · obtain ⟨⟨q, m⟩, hpointer⟩ := memRead_of_canRead hcan
    rw [exec_ldi_of_pointer dr hpointer] at h
    have hparams : (betweenAccesses (pgaddr s.pc off9) m).params = s.params :=
      (betweenAccesses_params _).trans (memRead_params hpointer)
    rw [IoExtraRefusal, ← hparams]
    exact loadFrom_refused h
  · exact ioExtraRefusal_of_not_canRead hcan (exec_ldi_of_not_canRead dr hcan) h

theorem exec_rti_refused (h : exec .rti s = .refused r) : IoExtraRefusal s r := by
  obtain ⟨-, completes, codesRefused, pcRefused⟩ := rtiPopsCodesThenPc
  by_cases hcodes : canRead s (s.readReg 6)
  · by_cases hpc : canRead s (s.readReg 6 - 1)
    · obtain ⟨w, m, t, -, ht, -⟩ := completes s hcodes hpc
      exact absurd h (next_ne_refused ht)
    · exact ioExtraRefusal_of_not_canRead hpc (pcRefused s hcodes hpc) h
  · exact ioExtraRefusal_of_not_canRead hcodes (codesRefused s hcodes) h

theorem trapEntry_refused {w : BitVec 8} (h : trapEntry w s = .refused r) : IoExtraRefusal s r := by
  by_cases hextra : zext8 w ∈ s.params.ioExtra
  · exact ⟨zext8 w, hextra, (Host.Outcome.refused.inj ((trapEntry_of_ioExtra hextra).symm.trans h)).symm⟩
  · exact absurd h (next_ne_refused (trapEntry_of_memory hextra))

/-- Why a store is refused, where since the state `s` the parameters are kept and no ready display has ceased to be
ready. -/
theorem memWrite_refused {w : Word} (hparams : u.params = s.params) (hready : s.crtReady = true → u.crtReady = true)
    (h : memWrite a w u = .refused r) : IoExtraRefusal s r ∨ StoreRefusal s r := by
  by_cases hcan : canWrite u a
  · obtain ⟨t, ht⟩ := memWrite_of_canWrite w hcan
    exact absurd h (next_ne_refused ht)
  · obtain ⟨r', hr', hwhy⟩ := memWrite_of_not_canWrite w hcan
    obtain rfl := Host.Outcome.refused.inj (hr'.symm.trans h)
    rcases hwhy with ⟨-, hbusy, hr⟩ | ⟨hregister, hr⟩ | ⟨-, hextra, hr⟩
    · exact .inr (.inr ⟨Bool.eq_false_iff.mpr (mt hready (Bool.eq_false_iff.mp hbusy)), hr⟩)
    · exact .inr (.inl ⟨a, hregister, hr⟩)
    · exact .inl ⟨a, hparams ▸ hextra, hr⟩

/-- A display that is ready stays ready between two accesses (60_exceptions.md R183). -/
theorem betweenAccesses_crtReady (a : Word) (h : s.crtReady = true) : (betweenAccesses a s).crtReady = true := by
  unfold betweenAccesses
  split
  · exact deviceTurn_crtReady h
  · exact h

/-- From before the read of a pointer to the store a display that is ready stays ready (60_exceptions.md R183). -/
theorem crtReady_after_pointer {q : Word × State} (h : memRead a s = .next q) (hready : s.crtReady = true) :
    (betweenAccesses a q.2).crtReady = true := by
  obtain ⟨-, -, -, ⟨-, hsame, -⟩, -⟩ := readEffect_of_memRead h
  exact betweenAccesses_crtReady a (hsame.trans hready)

theorem exec_sti_refused {sr : Reg} {off9 : BitVec 9} (h : exec (.sti sr off9) s = .refused r) :
    IoExtraRefusal s r ∨ StoreRefusal s r := by
  by_cases hcan : canRead s (pgaddr s.pc off9)
  · obtain ⟨⟨q, m⟩, hpointer⟩ := memRead_of_canRead hcan
    rw [exec_sti_of_pointer sr hpointer] at h
    exact memWrite_refused ((betweenAccesses_params _).trans (memRead_params hpointer))
      (crtReady_after_pointer hpointer) h
  · exact .inl (ioExtraRefusal_of_not_canRead hcan (exec_sti_of_not_canRead sr hcan) h)

/-- In image mode TRAP is refused for a reserved vector (44_system.md R153) or as a trap entry. -/
theorem exec_trap_refused {w : BitVec 8} (himage : s.params.trapModel = .image) (h : exec (.trap w) s = .refused r) :
    (w.toNat < 0x20 ∧ r = .reservedTrapVector w) ∨ IoExtraRefusal s r := by
  by_cases hw : w.toNat < 0x20
  · exact .inl ⟨hw, (Host.Outcome.refused.inj ((exec_trap_reserved s hw).symm.trans h)).symm⟩
  · rw [exec_trap_eq_trapEntry (Nat.le_of_not_lt hw) (.inl himage)] at h
    exact .inr (trapEntry_refused h)

/-- Which refusal which instruction can meet in image mode (60_exceptions.md R171). -/
theorem exec_refused (himage : s.params.trapModel = .image) (h : exec i s = .refused r) :
    (∃ w, i = .trap w ∧ w.toNat < 0x20 ∧ r = .reservedTrapVector w) ∨ IoExtraRefusal s r ∨
      (isStore i = true ∧ StoreRefusal s r) := by
  cases i with
  | ld | ldr => exact .inr (.inl (loadFrom_refused h))
  | ldi => exact .inr (.inl (exec_ldi_refused h))
  | st | str => exact .inr ((memWrite_refused rfl id h).imp_right fun hstore => ⟨rfl, hstore⟩)
  | sti => exact .inr ((exec_sti_refused h).imp_right fun hstore => ⟨rfl, hstore⟩)
  | rti => exact .inr (.inl (exec_rti_refused h))
  | trap w => exact (exec_trap_refused himage h).imp (fun hw => ⟨w, rfl, hw⟩) .inl
  | _ => exact absurd h (next_ne_refused rfl)

/-- Settles O57: no instruction faults in image mode, and each refusal is one of the named situations. -/
theorem noInstructionRaisesAnException : Obligations.NoInstructionRaisesAnException :=
  fun i _ himage => ⟨exec_ne_fault himage i, fun _ => exec_refused himage⟩

end Sys2Proof.Proofs.Exceptions
end

section
/-! PROOFS of the start of a run (70_reset_and_hazards.md R203, R204): the invariant (O50) and the devices (O51). -/

namespace Sys2Proof.Proofs.StartOfRun

open Sys2Proof Sys2Proof.Machine

/-- Whatever the parameters, the invariant asks nothing of a state that lists no memory and has no request pending. -/
theorem Inv_of_mem_nil_of_pending_nil {s : State} (hmem : s.mem = []) (hpending : s.pending = []) : s.Inv := by
  rw [State.Inv, hmem, hpending]
  exact ⟨Memory.wf_nil, List.nodup_nil, List.forall_mem_nil _⟩

/-- Settles O50: the start of a run lists no memory and has no request pending. -/
theorem resetHasInvariant : Obligations.ResetHasInvariant :=
  Inv_of_mem_nil_of_pending_nil rfl rfl

/-- Settles O51: the clock enable, KBSR[15], the screen and the requests are each what `State.reset` sets them to. -/
theorem resetDevicesAsSpecified : Obligations.ResetDevicesAsSpecified :=
  ⟨rfl, rfl, rfl, rfl⟩

end Sys2Proof.Proofs.StartOfRun
end
